-- ==== Sys2Proof/Word.lean ====
section
/-! DEFINITION. The word types of the block (spec/00_scope.md R6): the byte that every register, pattern,
instruction byte and scan byte is, and the 24-bit key mask. -/

namespace Sys2Proof

/-- An 8-bit value: a chip instruction byte, a SegmentPattern, a scan byte, a shadow byte (R6 CMD_BITS, SEG_BITS). -/
abbrev Byte := BitVec 8

/-- The 24-bit key mask, bit `line*8 + segment` (R6 KEYMASK_BITS, R81). -/
abbrev KeyMask := BitVec 24

end Sys2Proof
end

