-- ==== Sys2Proof/Config.lean ====
section
/-! DEFINITION. What an implementation fixes (spec/00_scope.md R7, R8; spec/30_encoding.md R71, R78;
spec/41_segment_decoder.md R120) and the free values the spec leaves open (spec/93_implementation_defined.md
I6, I9, I10, I11). The parameters are plain data, carried read-only in the state, so that every statement can be
made for every value of them; the free values are constants without a body. -/

namespace Sys2Proof

/-- The per-device parameter `wiring` (R8, R22). -/
inductive Wiring where
  /-- bit value 0 (R22, 92 D25) -/
  | commonCathode
  /-- bit value 1 (R22, 92 D25) -/
  | commonAnode
  deriving DecidableEq, Repr, Inhabited

/-- The seven physical segments: a top, b top-right, c bottom-right, d bottom, e bottom-left, f top-left,
g middle (R78). -/
inductive Segment where
  | a | b | c | d | e | f | g
  deriving DecidableEq, Repr, Inhabited

/-- CmdLayout: every class value and bit position the source leaves out (R71). Bits that no field names are 0. -/
structure CmdLayout where
  /-- CLS_DATA, `cmd[7:6]` of a data instruction -/
  clsData : BitVec 2
  /-- CLS_DISP, `cmd[7:6]` of a display-control instruction -/
  clsDisp : BitVec 2
  /-- CLS_ADDR, `cmd[7:6]` of an address instruction -/
  clsAddr : BitVec 2
  /-- DATA_RW_BIT: 0 = write to display registers, 1 = read key-scan data -/
  rwBit : Fin 6
  /-- DATA_AM_BIT: 0 = auto-increment, 1 = fixed addressing -/
  amBit : Fin 6
  /-- DATA_TM_BIT: 0 = normal, 1 = test mode -/
  tmBit : Fin 6
  /-- DISP_ON_BIT: 0 = blanked, 1 = enabled -/
  dispOnBit : Fin 6
  /-- READ_AM: the value of DATA_AM_BIT in the read-key-scan instruction -/
  readAm : Bool
  deriving DecidableEq, Repr

/-- The constraints every CmdLayout meets (R71, the paragraph under its table). -/
def CmdLayout.ok (l : CmdLayout) : Bool :=
  l.clsData != l.clsDisp && l.clsData != l.clsAddr && l.clsDisp != l.clsAddr
    && l.rwBit != l.amBit && l.rwBit != l.tmBit && l.amBit != l.tmBit
    && decide (3 ≤ l.dispOnBit.val)

/-- The fourth value of `cmd[7:6]` (R70, R75): the exclusive or of the three classes, since the four 2-bit values
together give 0. -/
def CmdLayout.clsFourth (l : CmdLayout) : BitVec 2 := l.clsData ^^^ l.clsDisp ^^^ l.clsAddr

/-- The default layout of R71 (PRESUMED: general knowledge, notes/assumptions/1.md). -/
def CmdLayout.default : CmdLayout where
  clsData := 0b01#2
  clsDisp := 0b10#2
  clsAddr := 0b11#2
  rwBit := 1
  amBit := 2
  tmBit := 3
  dispOnBit := 3
  readAm := false

/-- The configuration parameters of R7. -/
structure Config where
  /-- CmdLayout, R71 -/
  layout : CmdLayout
  /-- SEG_LUT[0..15], R120 -/
  segLut : Vector Byte 16
  /-- SEG_BITMAP: the segment that each of pattern bits 0-6 lights, R78 -/
  segBitmap : Vector Segment 7
  deriving DecidableEq, Repr

/-- What every configuration meets: the layout's constraints (R71) and bit 7 = 0 in every SEG_LUT entry
(R120, 92 D2). -/
def Config.ok (c : Config) : Bool :=
  c.layout.ok && c.segLut.toList.all fun e => !e.getLsbD 7

/-- The default SEG_LUT of R120 (PRESUMED: general knowledge, notes/assumptions/2.md). -/
def Config.defaultSegLut : Vector Byte 16 :=
  #v[0x3F#8, 0x06#8, 0x5B#8, 0x4F#8, 0x66#8, 0x6D#8, 0x7D#8, 0x07#8,
     0x7F#8, 0x6F#8, 0x77#8, 0x7C#8, 0x39#8, 0x5E#8, 0x79#8, 0x71#8]

/-- The default SEG_BITMAP of R78: bit 0 = a, ..., bit 6 = g (PRESUMED, notes/assumptions/2.md). -/
def Config.defaultSegBitmap : Vector Segment 7 := #v[.a, .b, .c, .d, .e, .f, .g]

/-- The default configuration of R7. -/
def Config.default : Config where
  layout := CmdLayout.default
  segLut := Config.defaultSegLut
  segBitmap := Config.defaultSegBitmap

/-- What the transport answers to one call (R180, R183, R184): `ok b` = the call succeeded, `b` being the byte a
read delivers (a call that is no read ignores it); `fail` = the call failed. -/
inductive Reply where
  | ok (b : Byte)
  | fail
  deriving DecidableEq, Repr, Inhabited

/-- FREE VALUE (I9, I10): what the transport answers to a call past its script. Nothing constrains it
(notes/assumptions/8.md). -/
opaque Config.drawReply : Nat → Reply

/-- FREE VALUE (I6, I11): an unknown chip display register (notes/assumptions/9.md). -/
opaque Config.drawByte : Nat → Byte

/-- FREE VALUE (I6, I11): an unknown chip display enable (notes/assumptions/9.md). -/
opaque Config.drawBit : Nat → Bool

/-- FREE VALUE (I6, I11): an unknown chip brightness (notes/assumptions/9.md). -/
opaque Config.drawLevel : Nat → BitVec 3

end Sys2Proof
end

