-- ==== Sys2Proof/Syntax.lean ====
section
/-! DEFINITION. The instructions: one constructor for each row of spec/opcode_table.json. The first seven are the
chip's instruction bytes, each as the frame it heads (spec/30_encoding.md R70-R77); the other nine are the requests
of the request port (R82). -/

namespace Sys2Proof

inductive Instr where
  /-- DATA_WRITE_AUTO: the frame `[CMD_WRITE]` (R76, R77 F_DCMD). -/
  | dataWriteAuto
  /-- DATA_READ_KEYS: the frame `[CMD_READ]` and its four reads (R76, R77 F_SCAN). -/
  | dataReadKeys
  /-- DATA_WRITE_FIXED: the frame `[DataInstr(0, 1, 0)]` (R75). -/
  | dataWriteFixed
  /-- DATA_GENERIC: the frame of any data instruction (R72); one of the three above when its bits say so. -/
  | dataGeneric (rw am tm : Bool)
  /-- ADDR_SET: the frame `[AddrInstr(a), d0, ...]` (R73, R77 F_WDATA). -/
  | addrSet (a : BitVec 4) (data : List Byte)
  /-- DISP_CTRL: the frame `[DispInstr(brightness, enabled)]` (R74, R77 F_DISP). -/
  | dispCtrl (brightness : BitVec 3) (enabled : Bool)
  /-- CLASS_00: the frame of one byte of the fourth class (R75); `low` is `cmd[5:0]`. -/
  | class00 (low : BitVec 6)
  /-- tag 0 (R201) -/
  | initDevice (wiring : Wiring)
  /-- tag 1 (R202) -/
  | configureDisplay (brightness : Nat) (enabled : Bool)
  /-- tag 2 (R203) -/
  | setDigit (position : Nat) (pattern : Byte)
  /-- tag 3 (R204) -/
  | setDigits (start : Nat) (patterns : List Byte)
  /-- tag 4 (R205) -/
  | setDigitHex (position : Nat) (value : BitVec 7) (dp : Bool)
  /-- tag 5 (R206); an item is (value, dp) -/
  | setDigitsHex (start : Nat) (items : List (BitVec 7 × Bool))
  /-- tag 6 (R207) -/
  | scanKeys
  /-- tag 7 (R208) -/
  | shutdown
  /-- RESERVED_TAG: tags 8-15 (R82, R200); `low` is `tag[2:0]`, `operands` whatever came with it. -/
  | reservedTag (low : BitVec 3) (operands : List Nat)
  deriving DecidableEq, Repr

/-- Whether the instruction is a request (R82) and not a chip frame (R77). -/
def Instr.isRequest : Instr → Bool
  | .dataWriteAuto => false
  | .dataReadKeys => false
  | .dataWriteFixed => false
  | .dataGeneric _ _ _ => false
  | .addrSet _ _ => false
  | .dispCtrl _ _ => false
  | .class00 _ => false
  | .initDevice _ => true
  | .configureDisplay _ _ => true
  | .setDigit _ _ => true
  | .setDigits _ _ => true
  | .setDigitHex _ _ _ => true
  | .setDigitsHex _ _ => true
  | .scanKeys => true
  | .shutdown => true
  | .reservedTag _ _ => true

end Sys2Proof
end

