-- ==== Sys2Proof/Machine/Builders.lean ====
section
/-! DEFINITION. The CommandEncoder's combinational byte builders (spec/40_command_encoder.md R100-R103), the four
frame kinds (spec/30_encoding.md R77) and the bytes of each. Every function here depends on its operands and the
layout alone (R12). -/

namespace Sys2Proof.Machine

/-- A class value in `cmd[7:6]` (R70). -/
def classField (c : BitVec 2) : Byte := c.setWidth 8 <<< 6

/-- One bit of an instruction byte at position `i` (R9). -/
def bitField (i : Nat) (x : Bool) : Byte := (BitVec.ofBool x).setWidth 8 <<< i

/-- `cmd[7:6]` of an instruction byte (R70). -/
def classOf (cmd : Byte) : BitVec 2 := cmd.extractLsb' 6 2

/-- `DataInstr(rw, am, tm)` (R100, format R72). -/
def dataInstr (l : CmdLayout) (rw am tm : Bool) : Byte :=
  classField l.clsData ||| bitField l.rwBit rw ||| bitField l.amBit am ||| bitField l.tmBit tm

/-- `AddrInstr(a)` for a start register 0-15 (R101, format R73). -/
def addrInstr (l : CmdLayout) (a : BitVec 4) : Byte := classField l.clsAddr ||| a.setWidth 8

/-- The address builder on any natural: past 15 there is no byte (R101 "a model may refuse it", 93 I19;
notes/assumptions/29.md). -/
def addrInstrOf (l : CmdLayout) (a : Nat) : Option Byte :=
  if a ≤ 15 then some (addrInstr l (BitVec.ofNat 4 a)) else none

/-- Brightness masked to 3 bits (R83, R102 "b <- brightness mod 8"). -/
def brightnessField (brightness : Nat) : BitVec 3 := BitVec.ofNat 3 (brightness % 8)

/-- `DispInstr(brightness, enabled)` for any natural brightness (R102, format R74). -/
def dispInstr (l : CmdLayout) (brightness : Nat) (enabled : Bool) : Byte :=
  classField l.clsDisp ||| bitField l.dispOnBit enabled ||| (brightnessField brightness).setWidth 8

/-- CMD_WRITE, "write multiple, auto-increment", normal mode (R103). -/
def cmdWrite (l : CmdLayout) : Byte := dataInstr l false false false

/-- CMD_READ, "read key-scan data", normal mode (R103). -/
def cmdRead (l : CmdLayout) : Byte := dataInstr l true l.readAm false

/-- A byte of the fourth class, which the block never emits (R75). -/
def fourthInstr (l : CmdLayout) (low : BitVec 6) : Byte := classField l.clsFourth ||| low.setWidth 8

/-- The four frame kinds, and no others (R77). -/
inductive Frame where
  /-- F_DCMD, `[CMD_WRITE]` -/
  | dcmd
  /-- F_WDATA, `[AddrInstr(a), d0, ..., d(n-1)]` -/
  | wdata (a : BitVec 4) (data : List Byte)
  /-- F_DISP, `[DispInstr(b, en)]` -/
  | disp (brightness : BitVec 3) (enabled : Bool)
  /-- F_SCAN, `[CMD_READ]` and four reads in the same bracket -/
  | scan
  deriving DecidableEq, Repr

/-- SCAN_BYTES (R6, R43). -/
def scanBytes : Nat := 4

/-- The bytes a frame writes, in order (R77). -/
def Frame.bytes (l : CmdLayout) : Frame → List Byte
  | .dcmd => [cmdWrite l]
  | .wdata a data => addrInstr l a :: data
  | .disp b en => [dispInstr l b.toNat en]
  | .scan => [cmdRead l]

/-- How many bytes a frame reads after its written bytes (R77). -/
def Frame.reads : Frame → Nat
  | .dcmd => 0
  | .wdata _ _ => 0
  | .disp _ _ => 0
  | .scan => scanBytes

/-- The lengths R77 allows: an F_WDATA frame holds `1 <= n` data bytes with `a + n <= 16`. -/
def Frame.legal : Frame → Bool
  | .dcmd => true
  | .wdata a data => decide (1 ≤ data.length) && decide (a.toNat + data.length ≤ 16)
  | .disp _ _ => true
  | .scan => true

/-- Whether a frame could address the display register `i` (R54 "every dr[i] the frame could address"). -/
def Frame.addresses (i : Nat) : Frame → Bool
  | .dcmd => false
  | .wdata a data => decide (a.toNat ≤ i) && decide (i < a.toNat + data.length)
  | .disp _ _ => false
  | .scan => false

end Sys2Proof.Machine
end

