-- ==== Sys2Proof/WellFormed.lean ====
section
/-! DEFINITION. Which instructions are in the form the decoder gives: an address frame holds 1 to 16 - a data bytes
(spec/30_encoding.md R77 F_WDATA), and the general data instruction stands only for the bit triples that have no row
of their own (spec/opcode_table.json, DATA_GENERIC beside the three data rows). -/

namespace Sys2Proof

/-- The well-formed instructions under a layout (the read command's triple depends on READ_AM, R71). -/
def Instr.wf (l : CmdLayout) : Instr → Bool
  | .dataWriteAuto => true
  | .dataReadKeys => true
  | .dataWriteFixed => true
  | .dataGeneric rw am tm =>
    !(!rw && !tm) && !(rw && am == l.readAm && !tm)
  | .addrSet a data => decide (1 ≤ data.length) && decide (a.toNat + data.length ≤ 16)
  | .dispCtrl _ _ => true
  | .class00 _ => true
  | .initDevice _ => true
  | .configureDisplay _ _ => true
  | .setDigit _ _ => true
  | .setDigits _ _ => true
  | .setDigitHex _ _ _ => true
  | .setDigitsHex _ _ => true
  | .scanKeys => true
  | .shutdown => true
  | .reservedTag _ _ => true

end Sys2Proof
end

