-- ==== Sys2Proof/Decode.lean ====
section
/-! DEFINITION. Decoding. What reaches the machine is a packet: a request of the request port, a 4-bit tag with its
operands (spec/30_encoding.md R82), or a chip frame, the bytes written in one bracket and how many bytes are read
back in it (R77). The decoder is total and rejects by name; the encoder stands after it. -/

namespace Sys2Proof

open Sys2Proof.Machine

/-- What is presented to the machine. -/
inductive Packet where
  /-- A request: its tag and its operands as naturals, in the order of R82's table (notes/assumptions/4.md). -/
  | request (tag : BitVec 4) (operands : List Nat)
  /-- A frame on the bus: the bytes written in its bracket, then how many bytes are read in it (R77). -/
  | frame (written : List Byte) (reads : Nat)
  deriving DecidableEq, Repr

/-- Why a packet is no instruction. -/
inductive DecodeError where
  /-- A request has too few or too many operands for its tag (R82). -/
  | operandCount
  /-- An operand lies outside its type: a bit over 1, a 7-bit value over 127, a byte over 255 (R82). -/
  | operandRange
  /-- A bracket holds no written byte (R77, R185). -/
  | emptyFrame
  /-- Bytes follow an instruction byte that takes none (R77: "any other frame" of R54). -/
  | trailingBytes
  /-- The number of bytes read in the bracket is not the frame kind's (R77). -/
  | readCount
  /-- A bit of `cmd[5:0]` that no field names is 1 (R71 "unused bits", R72-R74). -/
  | unusedBits
  deriving DecidableEq, Repr

/-- An operand of type "1 bit" (R82). -/
def readBit (n : Nat) : Except DecodeError Bool :=
  if n = 0 then .ok false else if n = 1 then .ok true else .error .operandRange

/-- An operand of type "8 bits" (R82). -/
def readByte (n : Nat) : Except DecodeError Byte :=
  if n < 256 then .ok (BitVec.ofNat 8 n) else .error .operandRange

/-- An operand of type "7 bits" (R82). -/
def readSeven (n : Nat) : Except DecodeError (BitVec 7) :=
  if n < 128 then .ok (BitVec.ofNat 7 n) else .error .operandRange

/-- A sequence of 8-bit values (R82, setDigits). -/
def readPatterns : List Nat → Except DecodeError (List Byte)
  | [] => .ok []
  | n :: ns =>
    match readByte n, readPatterns ns with
    | .ok b, .ok bs => .ok (b :: bs)
    | .error e, _ => .error e
    | _, .error e => .error e

/-- A sequence of (value: 7 bits, dp: 1 bit) pairs, flattened (R82, setDigitsHex). -/
def readItems : List Nat → Except DecodeError (List (BitVec 7 × Bool))
  | [] => .ok []
  | [_] => .error .operandCount
  | v :: d :: ns =>
    match readSeven v, readBit d, readItems ns with
    | .ok v', .ok d', .ok items => .ok ((v', d') :: items)
    | .error e, _, _ => .error e
    | _, .error e, _ => .error e
    | _, _, .error e => .error e

/-- `wiring` as its operand bit: 0 = CommonCathode, 1 = CommonAnode (R22). -/
def wiringOfBit (b : Bool) : Wiring := if b then .commonAnode else .commonCathode

/-- The bit of a wiring (R22). -/
def wiringBit : Wiring → Bool
  | .commonCathode => false
  | .commonAnode => true

/-- tag 0: wiring. -/
def decodeInitialize : List Nat → Except DecodeError Instr
  | [w] =>
    match readBit w with
    | .ok b => .ok (.initDevice (wiringOfBit b))
    | .error e => .error e
  | _ => .error .operandCount

/-- tag 1: brightness, enabled. -/
def decodeConfigureDisplay : List Nat → Except DecodeError Instr
  | [brightness, en] =>
    match readBit en with
    | .ok b => .ok (.configureDisplay brightness b)
    | .error e => .error e
  | _ => .error .operandCount

/-- tag 2: position, pattern. -/
def decodeSetDigit : List Nat → Except DecodeError Instr
  | [position, pattern] =>
    match readByte pattern with
    | .ok p => .ok (.setDigit position p)
    | .error e => .error e
  | _ => .error .operandCount

/-- tag 3: start, then the patterns. -/
def decodeSetDigits : List Nat → Except DecodeError Instr
  | start :: patterns =>
    match readPatterns patterns with
    | .ok ps => .ok (.setDigits start ps)
    | .error e => .error e
  | [] => .error .operandCount

/-- tag 4: position, value, dp. -/
def decodeSetDigitHex : List Nat → Except DecodeError Instr
  | [position, value, dp] =>
    match readSeven value, readBit dp with
    | .ok v, .ok d => .ok (.setDigitHex position v d)
    | .error e, _ => .error e
    | _, .error e => .error e
  | _ => .error .operandCount

/-- tag 5: start, then value and dp of each item. -/
def decodeSetDigitsHex : List Nat → Except DecodeError Instr
  | start :: items =>
    match readItems items with
    | .ok is => .ok (.setDigitsHex start is)
    | .error e => .error e
  | [] => .error .operandCount

/-- tags 6 and 7: an operation without operands. -/
def decodeBare (i : Instr) : List Nat → Except DecodeError Instr
  | [] => .ok i
  | _ :: _ => .error .operandCount

/-- A request by its tag (R82). Tags 8-15 are the reserved instruction, whatever their operands: executing it is
refused (R200, R245). -/
def decodeRequest (tag : BitVec 4) (operands : List Nat) : Except DecodeError Instr :=
  match tag.toNat with
  | 0 => decodeInitialize operands
  | 1 => decodeConfigureDisplay operands
  | 2 => decodeSetDigit operands
  | 3 => decodeSetDigits operands
  | 4 => decodeSetDigitHex operands
  | 5 => decodeSetDigitsHex operands
  | 6 => decodeBare .scanKeys operands
  | 7 => decodeBare .shutdown operands
  | _ => .ok (.reservedTag (tag.setWidth 3) operands)

/-- A frame headed by a data instruction (R72): the byte's three fields are read at the layout's positions and every
other bit of `cmd[5:0]` must be 0. -/
def decodeData (l : CmdLayout) (b : Byte) (data : List Byte) (reads : Nat) : Except DecodeError Instr :=
  let rw := b.getLsbD l.rwBit
  let am := b.getLsbD l.amBit
  let tm := b.getLsbD l.tmBit
  if b ≠ dataInstr l rw am tm then .error .unusedBits
  else if data ≠ [] then .error .trailingBytes
  else if rw && am == l.readAm && !tm then
    if reads = scanBytes then .ok .dataReadKeys else .error .readCount
  else if reads ≠ 0 then .error .readCount
  else if !rw && !tm then .ok (if am then .dataWriteFixed else .dataWriteAuto)
  else .ok (.dataGeneric rw am tm)

/-- A frame headed by an address instruction (R73). -/
def decodeAddr (l : CmdLayout) (b : Byte) (data : List Byte) (reads : Nat) : Except DecodeError Instr :=
  let a := b.extractLsb' 0 4
  if b ≠ addrInstr l a then .error .unusedBits
  else if reads ≠ 0 then .error .readCount
  else .ok (.addrSet a data)

/-- A frame headed by a display-control instruction (R74). -/
def decodeDisp (l : CmdLayout) (b : Byte) (data : List Byte) (reads : Nat) : Except DecodeError Instr :=
  let brightness := b.extractLsb' 0 3
  let en := b.getLsbD l.dispOnBit
  if b ≠ dispInstr l brightness.toNat en then .error .unusedBits
  else if data ≠ [] then .error .trailingBytes
  else if reads ≠ 0 then .error .readCount
  else .ok (.dispCtrl brightness en)

/-- A frame headed by a byte of the fourth class (R75). -/
def decodeFourth (b : Byte) (data : List Byte) (reads : Nat) : Except DecodeError Instr :=
  if data ≠ [] then .error .trailingBytes
  else if reads ≠ 0 then .error .readCount
  else .ok (.class00 (b.extractLsb' 0 6))

/-- A chip frame by the class of its first byte (R70, R77 "its first byte gives its kind"). -/
def decodeFrame (l : CmdLayout) (written : List Byte) (reads : Nat) : Except DecodeError Instr :=
  match written with
  | [] => .error .emptyFrame
  | b :: data =>
    if classOf b = l.clsData then decodeData l b data reads
    else if classOf b = l.clsAddr then decodeAddr l b data reads
    else if classOf b = l.clsDisp then decodeDisp l b data reads
    else decodeFourth b data reads

/-- The decoder, under a layout (R71: a model takes it as an argument). -/
def decode (l : CmdLayout) : Packet → Except DecodeError Instr
  | .request tag operands => decodeRequest tag operands
  | .frame written reads => decodeFrame l written reads

/-! The encoder, from the same tables. -/

/-- The items of setDigitsHex as a flat operand list (R82). -/
def itemOperands : List (BitVec 7 × Bool) → List Nat
  | [] => []
  | (v, d) :: items => v.toNat :: d.toNat :: itemOperands items

/-- The packet of an instruction: its request (R82) or its frame (R77, built by R100-R102). -/
def encode (l : CmdLayout) : Instr → Packet
  | .dataWriteAuto => .frame [cmdWrite l] 0
  | .dataReadKeys => .frame [cmdRead l] scanBytes
  | .dataWriteFixed => .frame [dataInstr l false true false] 0
  | .dataGeneric rw am tm => .frame [dataInstr l rw am tm] 0
  | .addrSet a data => .frame (addrInstr l a :: data) 0
  | .dispCtrl brightness en => .frame [dispInstr l brightness.toNat en] 0
  | .class00 low => .frame [fourthInstr l low] 0
  | .initDevice w => .request 0 [(wiringBit w).toNat]
  | .configureDisplay brightness en => .request 1 [brightness, en.toNat]
  | .setDigit position pattern => .request 2 [position, pattern.toNat]
  | .setDigits start patterns => .request 3 (start :: patterns.map BitVec.toNat)
  | .setDigitHex position value dp => .request 4 [position, value.toNat, dp.toNat]
  | .setDigitsHex start items => .request 5 (start :: itemOperands items)
  | .scanKeys => .request 6 []
  | .shutdown => .request 7 []
  | .reservedTag low operands => .request (8#4 ||| low.setWidth 4) operands

/-! The opcode table's numbering of an instruction's bits. -/

/-- The first `k` bytes of a number, the least significant first. -/
def bytesOfNat : Nat → Nat → List Nat
  | 0, _ => []
  | k + 1, w => w % 256 :: bytesOfNat k (w / 256)

/-- How many operands a tag takes at least (R82). -/
def operandArity (tag : Nat) : Nat :=
  match tag with
  | 0 => 1
  | 1 => 2
  | 2 => 2
  | 3 => 1
  | 4 => 3
  | 5 => 1
  | _ => 0

/-- The packet whose bits are `w`, numbered as spec/opcode_table.json numbers them. The table gives the request rows
4 bits and the chip rows 8, both from bit 0, so a first byte under 16 is read as a request tag and any other as a chip
instruction byte (notes/assumptions/5.md). Operands the table gives no bits are 0; an address frame without a data
byte is given one zero byte, and the read command its four reads. -/
def tablePacket (nbits w : Nat) : Packet :=
  let first := w % 256
  let rest := bytesOfNat ((nbits + 7) / 8 - 1) (w / 256)
  if first < 16 then
    .request (BitVec.ofNat 4 first) (rest ++ List.replicate (operandArity first - rest.length) 0)
  else
    let b := BitVec.ofNat 8 first
    let l := CmdLayout.default
    let data := rest.map (BitVec.ofNat 8)
    if classOf b = l.clsAddr && data.isEmpty then .frame [b, 0] 0
    else .frame (b :: data) (if b = cmdRead l then scanBytes else 0)

/-- The instruction the decoder reads from an instruction whose bits are `w` in the opcode table's numbering, at the
default layout, which is the table's. -/
def decodeTableWord (nbits w : Nat) : Option Instr :=
  match decode CmdLayout.default (tablePacket nbits w) with
  | .ok i => some i
  | .error _ => none

end Sys2Proof
end

