-- ==== Sys2Proof/Machine/State.lean ====
section
/-! DEFINITION. The state: the block's own state vector (spec/10_state.md R20-R25), the transport it drives
(R30, spec/44_transport_interface.md R180-R188), the reference observer of the chip (spec/20_memory.md R54), the
request port (spec/30_encoding.md R82) and the reply it gives (spec/60_exceptions.md R240); the reasons a step can
stop; the state after reset (spec/70_reset_and_hazards.md R260). -/

namespace Sys2Proof.Machine

/-- The lifecycle register (R21). -/
inductive Life where
  | unbound
  | ready
  | released
  deriving DecidableEq, Repr

/-- The transport binding `tp` (R25): a reference to the one injected transport, or none. -/
inductive Binding where
  | unbound
  | bound
  deriving DecidableEq, Repr

/-- The statuses (R240). The last two are reserved and never returned (R242, R243). -/
inductive Status where
  | ok
  | transportError
  | notReady
  | invalidAddress
  | unrecognizedDigitValue
  deriving DecidableEq, Repr

/-- What an operation returns to its caller (R5, R240): its status and, for scanKeys, the mask (R207). -/
structure Response where
  status : Status
  mask : Option KeyMask
  deriving DecidableEq, Repr

/-- One transport event (R182). -/
inductive Event where
  /-- `B`, made by `TxBegin` -/
  | bracketBegin
  /-- `E`, made by `TxEnd` -/
  | bracketEnd
  /-- `Wxx`, one byte of a `writeBytes` -/
  | wr (b : Byte)
  /-- `Rxx`, one byte of a `readBytes` -/
  | rd (b : Byte)
  deriving DecidableEq, Repr

/-- Which realisation the injected transport is (R187, R188). No rule reads it. -/
inductive TransportKind where
  | bitBanged
  | hardwareSerial
  | recorder
  deriving DecidableEq, Repr

/-- The transport: an external collaborator (R5, agent 3). -/
structure Transport where
  /-- the realisation (R187) -/
  kind : TransportKind
  /-- whether a bracket is open (R30) -/
  bracket : Bool
  /-- whether it keeps the bracket when it switches direction, its duty (R186) -/
  keepsBracket : Bool
  /-- the trace, oldest event first (R182, R188) -/
  log : List Event
  /-- the answers to the next calls (R188) -/
  script : List Reply
  /-- MODEL's own: how many free replies have been drawn (R183, R184) -/
  drawn : Nat
  deriving DecidableEq, Repr

/-- The addressing mode the observer holds of the chip (R54). -/
inductive AddrMode where
  | none
  | writeAuto
  | unknown
  deriving DecidableEq, Repr

/-- The reference observer of the chip (R54). -/
structure Chip where
  /-- the display registers -/
  dr : Vector Byte 16
  amode : AddrMode
  dispOn : Bool
  bright : BitVec 3
  deriving DecidableEq, Repr

/-- What the environment does next (R5, R82, R245, R253, R260). -/
inductive Input where
  /-- a packet is presented -/
  | present (p : Packet)
  /-- a request is presented while the operation before it still runs (R245) -/
  | overlap (p : Packet)
  /-- an external reset of the block, the chip and the bus staying powered (R260) -/
  | blockReset
  /-- power is lost and comes back: a block reset in which nothing persists (R253, R260) -/
  | powerOn
  deriving DecidableEq, Repr

/-- The reasons a step faults. Neither arises in a state a run from reset reaches. -/
inductive Fault where
  /-- Raised by a transport call while `tp` is unbound: there is no transport to answer it (R25). Safe: the spec
  gives such a call no effect. -/
  | transportUnbound
  /-- Raised by the set* operations on a Ready block whose `wiring` has no value (R22, R140). Safe: the spec gives
  neither path then. -/
  | wiringUnset
  deriving DecidableEq, Repr

/-- The reasons a step is refused. -/
inductive Refusal where
  /-- An instruction the model gives no meaning; raised only by an arm of `exec`. Safe. -/
  | notModelled (mnemonic : String)
  /-- Raised by RESERVED_TAG: tags 8-15 are refused (R200, R245). Safe. -/
  | reservedTag
  /-- Raised by `step` on a request presented while another operation runs (R245). Safe. -/
  | overlappingRequest
  /-- Raised by `step` on a packet that is no instruction: operands outside their types (R82), or a frame the source
  gives no meaning (R54). Safe. -/
  | undecodable (e : DecodeError)
  /-- Raised by DATA_WRITE_FIXED and DATA_GENERIC: a fixed-addressing write (R54, R75). Safe. -/
  | fixedAddressing
  /-- Raised by DATA_GENERIC: a data instruction in test mode (R54, R75). Safe. -/
  | testMode
  /-- Raised by DATA_GENERIC: a read command whose addressing bit is not READ_AM (R54, R76). Safe. -/
  | readAddressing
  /-- Raised by CLASS_00: a byte of the fourth class (R54, R75). Safe. -/
  | fourthClass
  /-- Raised by ADDR_SET: an address frame while the observer does not hold auto-increment write mode (R54). Safe. -/
  | addressWithoutWrite
  /-- Raised by ADDR_SET: an address frame without data, or past register 15 (R54). Safe. -/
  | registerRange
  /-- Raised by scanKeys: the transport dropped the bracket between the read command and the reads, which is outside
  the spec (R186). Safe. -/
  | bracketDropped
  deriving DecidableEq, Repr

structure State where
  /-- the parameters of R7, read-only -/
  cfg : Config
  /-- R21 -/
  life : Life
  /-- R22: no value while `life = Unbound` ("a model holds it as `none`") -/
  wiring : Option Wiring
  /-- the shadow register file (R23) -/
  sh : Vector Byte 16
  /-- R25 -/
  tp : Binding
  /-- the injected transport (R180-R188) -/
  bus : Transport
  /-- the reference observer (R54) -/
  chip : Chip
  /-- MODEL's own: the next index of a free chip value (93 I6, I11) -/
  draws : Nat
  /-- the environment's inputs, in order (R27, R82) -/
  port : List Input
  /-- what the last operation returned (R240); no operation reads it (R28) -/
  reply : Option Response
  deriving DecidableEq, Repr

/-- Sixteen zero bytes (R23, R201). -/
def zeroShadow : Vector Byte 16 := Vector.replicate 16 0#8

/-- A chip of which nothing is known, drawn from index `n` on (R54, 93 I6). -/
def Chip.drawn (n : Nat) : Chip where
  dr := Vector.ofFn fun i => Config.drawByte (n + i.val)
  amode := .unknown
  dispOn := Config.drawBit n
  bright := Config.drawLevel n

/-- How many draw indexes one unknown chip takes. -/
def drawStride : Nat := 16

/-- The injected transport before its first call (R188, notes/assumptions/8.md). -/
def Transport.fresh : Transport where
  kind := .recorder
  bracket := false
  keepsBracket := true
  log := []
  script := []
  drawn := 0

/-- The machine right after reset (R260). -/
def State.reset : State where
  cfg := Config.default
  life := .unbound
  wiring := none
  sh := zeroShadow
  tp := .unbound
  bus := Transport.fresh
  chip := Chip.drawn 0
  draws := drawStride
  port := []
  reply := none

end Sys2Proof.Machine
end

