-- ==== Sys2Proof/Machine/Flags.lean ====
section
/-! DEFINITION. The block has no status flags or condition codes (spec/10_state.md R28): no operation writes or reads
one. The only indication is the status an operation returns; its numeric code (spec/60_exceptions.md R240) and the
codes of the two control registers (R21, R22) stand here. -/

namespace Sys2Proof.Machine

/-- The numeric code of a status (R240). -/
def statusCode : Status → Nat
  | .ok => 0
  | .transportError => 1
  | .notReady => 2
  | .invalidAddress => 3
  | .unrecognizedDigitValue => 4

/-- Whether a status is one the block returns (R240, R242, R243). -/
def statusReturned : Status → Bool
  | .ok => true
  | .transportError => true
  | .notReady => true
  | .invalidAddress => false
  | .unrecognizedDigitValue => false

/-- `life` as its two bits (R21); the value 3 is never held. -/
def lifeCode : Life → BitVec 2
  | .unbound => 0
  | .ready => 1
  | .released => 2

/-- `wiring` as its bit (R22). -/
def wiringCode (w : Wiring) : BitVec 1 := BitVec.ofBool (wiringBit w)

end Sys2Proof.Machine
end

