-- ==== Sys2Proof/Machine/Operands.lean ====
section
/-! DEFINITION. Operand assembly (spec/30_encoding.md R83): the raw byte of the SegmentDecoder, digit positions and the
clipping of a cathode run. Brightness and the start register are assembled by the builders
(Sys2Proof/Machine/Builders.lean). -/

namespace Sys2Proof.Machine

/-- The raw SegmentDecoder input `dp << 7 | value` (R79, R83, 92 D12). -/
def rawHex (value : BitVec 7) (dp : Bool) : Byte := bitField 7 dp ||| value.setWidth 8

/-- NDIG_CC (R6): positions 0-15 are addressable under CommonCathode. -/
def cathodeDigits : Nat := 16

/-- How many of `n` digits from `start` on lie in 0-15 (R146 `m`). -/
def cathodeCount (start n : Nat) : Nat :=
  if start ≥ cathodeDigits then 0 else min n (cathodeDigits - start)

/-- `AnodeLocate(p)`: group and intra-group offset of a digit position, none outside 0-9 (R141). -/
def anodeLocate (p : Nat) : Option (Fin 2 × Fin 8) :=
  if p ≤ 7 then some (0, Fin.ofNat 8 p)
  else if p ≤ 9 then some (1, Fin.ofNat 8 (p - 8))
  else none

/-- `registerIndex = 2*s + group` (R142). -/
def registerIndex (s : Fin 8) (group : Fin 2) : Fin 16 := ⟨2 * s.val + group.val, by omega⟩

end Sys2Proof.Machine
end

