-- ==== Sys2Proof/Machine/Ops.lean ====
section
/-! DEFINITION. The shared operations: the transport's four calls (spec/44_transport_interface.md R180-R186), the
reference observer (spec/20_memory.md R54), one frame on the bus with the observer behind it, and the only thing this
hardware has in place of an exception: admission and the status an operation ends with (spec/45_device_operations.md
R200, spec/60_exceptions.md R240-R249). -/

namespace Sys2Proof.Machine

/-- How a sequence of transport calls ends. -/
inductive Run (α : Type) where
  /-- every call succeeded -/
  | done (a : α) (s : State)
  /-- a call failed: the sequence stops there (R184) -/
  | failed (s : State)
  /-- the machine faults -/
  | faulted (f : Fault)
  /-- the run has no meaning in the spec -/
  | refused (r : Refusal)
  deriving Repr

/-- One sequence after another: "the sequence stops at that call" (R104). -/
def Run.bind {α β : Type} (r : Run α) (k : α → State → Run β) : Run β :=
  match r with
  | .done a s => k a s
  | .failed s => .failed s
  | .faulted f => .faulted f
  | .refused e => .refused e

/-! ### The bit sequencer (R181) -/

/-- The bits of a byte in wire order, `b[0]` first (R181 Serialize, R45). -/
def serialize (b : Byte) : List Bool :=
  [b.getLsbD 0, b.getLsbD 1, b.getLsbD 2, b.getLsbD 3, b.getLsbD 4, b.getLsbD 5, b.getLsbD 6, b.getLsbD 7]

/-- The byte whose bits arrived in this order: the sum of `q[i] << i` (R181 Deserialize). -/
def deserialize : List Bool → Byte
  | [] => 0
  | q :: qs => bitField 0 q ||| (deserialize qs <<< 1)

/-- The bits an event puts on the data line, in wire order (R181, R182). -/
def Event.bits : Event → List Bool
  | .bracketBegin => []
  | .bracketEnd => []
  | .wr b => serialize b
  | .rd b => serialize b

/-! ### The transport calls (R180, R182-R184) -/

/-- The transport's answer to the next call: the script's (R188), and past the script a free one (R183, R184). -/
def Transport.answer (t : Transport) : Reply × Transport :=
  match t.script with
  | r :: rs => (r, { t with script := rs })
  | [] => (Config.drawReply t.drawn, { t with drawn := t.drawn + 1 })

/-- The bracket after an event (R30, R182); only a recorded event moves it (notes/assumptions/28.md). -/
def bracketAfter (open_ : Bool) : Event → Bool
  | .bracketBegin => true
  | .bracketEnd => false
  | .wr _ => open_
  | .rd _ => open_

/-- The transport records an event (R182, R188). -/
def Transport.record (t : Transport) (e : Event) : Transport :=
  { t with log := t.log ++ [e], bracket := bracketAfter t.bracket e }

/-- One transport call, `mk` giving its event from the byte it delivers. A failed call adds no event and returns no
byte (R184). DESIGN CHOICE (notes/assumptions/28.md): a failed call leaves the bracket as the last recorded event left
it, so a failed `TxBegin` opens none and a failed `TxEnd` leaves it open; R30 says only that one may be left open. -/
def txCall (mk : Byte → Event) (s : State) : Run Byte :=
  match s.tp with
  | .unbound => .faulted .transportUnbound
  | .bound =>
    match s.bus.answer with
    | (.ok b, bus) => .done b { s with bus := bus.record (mk b) }
    | (.fail, bus) => .failed { s with bus := bus }

/-- `TxBegin`, beginTransaction (R180). -/
def txBegin (s : State) : Run Byte := txCall (fun _ => .bracketBegin) s

/-- `TxEnd`, endTransaction (R180). -/
def txEnd (s : State) : Run Byte := txCall (fun _ => .bracketEnd) s

/-- `TxWrite(b)` (R180). -/
def txWrite (b : Byte) (s : State) : Run Byte := txCall (fun _ => .wr b) s

/-- `TxRead()` (R180). -/
def txRead (s : State) : Run Byte := txCall .rd s

/-- `writeBytes(bytes)`: one event per byte (R180, R182). -/
def writeBytes : List Byte → State → Run Unit
  | [], s => .done () s
  | b :: bs, s => (txWrite b s).bind fun _ s => writeBytes bs s

/-- `readBytes(count)`: one event per byte; a short read is a failure (R180, R182, R184). -/
def readBytes : Nat → State → Run (List Byte)
  | 0, s => .done [] s
  | n + 1, s => (txRead s).bind fun b s => (readBytes n s).bind fun bs s => .done (b :: bs) s

/-- Before the reads of a frame the transport switches direction inside the bracket; one that drops the bracket there
is outside the spec (R186, 93 I17). A frame without reads has no switch. -/
def turnAround (reads : Nat) (s : State) : Run Unit :=
  if reads = 0 ∨ s.bus.keepsBracket = true then .done () s else .refused .bracketDropped

/-- The transport calls of one frame, in order; the bytes read are its result (R77, R104-R106). -/
def frameCalls (f : Frame) (s : State) : Run (List Byte) :=
  (txBegin s).bind fun _ s =>
  (writeBytes (f.bytes s.cfg.layout) s).bind fun _ s =>
  (turnAround f.reads s).bind fun _ s =>
  (readBytes f.reads s).bind fun answers s =>
  (txEnd s).bind fun _ s => .done answers s

/-! ### The reference observer (R54) -/

/-- `for k in 0..n-1: dr[a + k] <- dk`. A register past 15 does not exist and is never reached (R42, R54). -/
def writeRun (a : Nat) : List Byte → Vector Byte 16 → Vector Byte 16
  | [], dr => dr
  | d :: ds, dr => writeRun (a + 1) ds (dr.setIfInBounds a d)

/-- What a complete frame does to the observer; a frame the source gives no meaning is refused (R54). -/
def Chip.consume (c : Chip) : Frame → Except Refusal Chip
  | .dcmd => .ok { c with amode := .writeAuto }
  | .wdata a data =>
    if c.amode ≠ .writeAuto then .error .addressWithoutWrite
    else if ¬(1 ≤ data.length ∧ a.toNat + data.length ≤ 16) then .error .registerRange
    else .ok { c with dr := writeRun a.toNat data c.dr }
  | .disp brightness en => .ok { c with bright := brightness, dispOn := en }
  | .scan => .ok { c with amode := .unknown }

/-- The frame of a data instruction by its three bits, where the source gives it a meaning: the write command and the
read command; fixed addressing, test mode and the other read command have none (R54, R75, R76). -/
def dataFrame (l : CmdLayout) (rw am tm : Bool) : Except Refusal Frame :=
  if tm then .error .testMode
  else if rw then (if am = l.readAm then .ok .scan else .error .readAddressing)
  else if am then .error .fixedAddressing
  else .ok .dcmd

/-- A frame cut short by a transport failure: every register it could address, the mode, the enable and the
brightness become unknown (R54, R248), each a fresh free value. -/
def Chip.cut (c : Chip) (f : Frame) (n : Nat) : Chip where
  dr := Vector.ofFn fun i => if f.addresses i.val then Config.drawByte (n + i.val) else c.dr[i]
  amode := .unknown
  dispOn := Config.drawBit n
  bright := Config.drawLevel n

/-- The observer after a cut frame. -/
def cutFrame (f : Frame) (s : State) : State :=
  { s with chip := s.chip.cut f s.draws, draws := s.draws + drawStride }

/-- The observer forgets everything: at `initialize` every field holds an unknown value (R54, R262). -/
def forgetChip (s : State) : State :=
  { s with chip := Chip.drawn s.draws, draws := s.draws + drawStride }

/-- One frame on the bus: its calls, then what the observer makes of it, whole or cut short (R54, R184). -/
def sendFrame (f : Frame) (s : State) : Run (List Byte) :=
  match frameCalls f s with
  | .done answers s' =>
    match s'.chip.consume f with
    | .ok c => .done answers { s' with chip := c }
    | .error r => .refused r
  | .failed s' => .failed (cutFrame f s')
  | .faulted e => .faulted e
  | .refused r => .refused r

/-- A frame that reaches the observer from the bus, not from the block (R54). The block and the trace of its own bus
activity are untouched (notes/assumptions/6.md). -/
def observeFrame (f : Frame) (s : State) : Host.Outcome State Fault Refusal :=
  match s.chip.consume f with
  | .ok c => .next { s with chip := c }
  | .error r => .refused r

/-! ### Admission and the end of an operation (R200, R240-R249) -/

/-- The reply an operation gives its caller (R240). -/
def State.respond (s : State) (status : Status) (mask : Option KeyMask) : State :=
  { s with reply := some { status := status, mask := mask } }

/-- `Admit`: the operation runs only in the lifecycle state it needs; otherwise NotReady, with no effect
(R200, R244). -/
def ifAdmitted (need : Life) (body : State → Host.Outcome State Fault Refusal) (s : State) :
    Host.Outcome State Fault Refusal :=
  if s.life = need then body s else .next (s.respond .notReady none)

/-- The end of an operation that made transport calls: Ok, or TransportError at the first call that failed, every
state change made before it kept and no mask returned (R241, R248). -/
def finish (r : Run (Option KeyMask)) : Host.Outcome State Fault Refusal :=
  match r with
  | .done mask s => .next (s.respond .ok mask)
  | .failed s => .next (s.respond .transportError none)
  | .faulted f => .fault f
  | .refused e => .refused e

/-! ### Block reset and power-on (R260, R253) -/

/-- An external reset of the block: the block's own state as after reset; the chip and the transport are not part of the
block and stay as they are (R4, R29, R30; notes/assumptions/19.md). -/
def State.blockReset (s : State) : State :=
  { s with life := .unbound, wiring := none, sh := zeroShadow, tp := .unbound, reply := none }

/-- The transport brought up anew: no bracket open and an empty trace. Which realisation it is, how it does its duty and
what it will answer are no state that power keeps (R30, R187, R188; notes/assumptions/30.md). -/
def Transport.powerOn (t : Transport) : Transport := { t with bracket := false, log := [] }

/-- Power-on: the block reset of R260, in which moreover nothing persists (R253): every field of the chip is unknown
(R54, 91 N6) and the transport is brought up anew (R263; notes/assumptions/30.md). -/
def State.powerOn (s : State) : State := forgetChip { s.blockReset with bus := s.bus.powerOn }

/-- The shadow as the spec speaks of it: no value while `life = Unbound` (R23, 93 I16). -/
def State.shadow? (s : State) : Option (Vector Byte 16) :=
  if s.life = .unbound then none else some s.sh

end Sys2Proof.Machine
end

