-- ==== Sys2Proof/Machine/ChipFrames.lean ====
section
/-! DEFINITION. The meanings of the chip's instruction bytes: what the reference observer makes of the frame each one
heads (spec/20_memory.md R54, spec/30_encoding.md R70-R77). -/

namespace Sys2Proof.Machine

/-- DATA_WRITE_AUTO: the observer holds auto-increment write mode (R54). -/
def execDataWriteAuto (s : State) : Host.Outcome State Fault Refusal := observeFrame .dcmd s

/-- DATA_READ_KEYS with its four reads: `dr` unchanged, the mode unknown (R54). -/
def execDataReadKeys (s : State) : Host.Outcome State Fault Refusal := observeFrame .scan s

/-- DATA_WRITE_FIXED: the source gives the frame no meaning, so it is refused (R54, R75, R245). -/
def execDataWriteFixed (_ : State) : Host.Outcome State Fault Refusal := .refused .fixedAddressing

/-- DATA_GENERIC: the write and the read command as their own rows, every other data instruction refused
(R54, R75, R76). -/
def execDataGeneric (rw am tm : Bool) (s : State) : Host.Outcome State Fault Refusal :=
  match dataFrame s.cfg.layout rw am tm with
  | .ok f => observeFrame f s
  | .error r => .refused r

/-- ADDR_SET with its data bytes: they land in registers `a`, `a + 1`, ... while the mode is auto-increment write and
the run ends by register 15; otherwise refused (R54, R42). -/
def execAddrSet (a : BitVec 4) (data : List Byte) (s : State) : Host.Outcome State Fault Refusal :=
  observeFrame (.wdata a data) s

/-- DISP_CTRL: brightness and display enable (R54, R74). -/
def execDispCtrl (brightness : BitVec 3) (enabled : Bool) (s : State) : Host.Outcome State Fault Refusal :=
  observeFrame (.disp brightness enabled) s

/-- CLASS_00: the source gives the fourth class no meaning, so it is refused (R54, R75, R245). -/
def execClass00 (_ : BitVec 6) (_ : State) : Host.Outcome State Fault Refusal := .refused .fourthClass

end Sys2Proof.Machine
end

