-- ==== Sys2Proof/Machine/CommandEncoder.lean ====
section
/-! DEFINITION. The CommandEncoder's three transport sequences (spec/40_command_encoder.md R104-R106). No other
sequence exists (R107). -/

namespace Sys2Proof.Machine

/-- `WriteRegs(a, d)`: the write command in a transaction of its own, then the address instruction and the data bytes
in a second one (R104). -/
def writeRegs (a : BitVec 4) (data : List Byte) (s : State) : Run Unit :=
  (sendFrame .dcmd s).bind fun _ s =>
  (sendFrame (.wdata a data) s).bind fun _ s => .done () s

/-- `ScanRead()`: the read command and four reads in one bracket; byte r of the result is the r-th byte the transport
returns (R105, R43). -/
def scanRead (s : State) : Run (Vector Byte 4) :=
  (sendFrame .scan s).bind fun reg s =>
  .done #v[reg.getD 0 0, reg.getD 1 0, reg.getD 2 0, reg.getD 3 0] s

/-- `DispCtrl(brightness, enabled)`: one bracket holding the one byte (R106). -/
def dispCtrl (brightness : Nat) (enabled : Bool) (s : State) : Run Unit :=
  (sendFrame (.disp (brightnessField brightness) enabled) s).bind fun _ s => .done () s

end Sys2Proof.Machine
end

