-- ==== Sys2Proof/Machine/DisplayRegisterMap.lean ====
section
/-! DEFINITION. The DisplayRegisterMap (spec/42_display_register_map.md R140-R148): the anode transposition into the
shadow register file with its unconditional full flush, and the direct cathode write. -/

namespace Sys2Proof.Machine

/-- Write bit `i` of a byte, other bits unchanged: `(b & ~(1 << i)) | (x << i)` (R11). -/
def writeBit (b : Byte) (i : Nat) (x : Bool) : Byte := (b &&& ~~~(1#8 <<< i)) ||| bitField i x

/-- `sh[r][b] <- x` (R11). -/
def shadowSetBit (sh : Vector Byte 16) (r : Fin 16) (b : Fin 8) (x : Bool) : Vector Byte 16 :=
  sh.set r (writeBit sh[r] b.val x)

/-- The segment indices 0-7 in order (R142 `for s in 0..7`). -/
def segmentIndices : List (Fin 8) := [0, 1, 2, 3, 4, 5, 6, 7]

/-- `TransposeDigit(p, pat)`: the eight bits of the pattern go to bit `off` of registers `2*s + group`; a position
outside 0-9 is skipped (R142). -/
def transposeDigit (p : Nat) (pattern : Byte) (sh : Vector Byte 16) : Vector Byte 16 :=
  match anodeLocate p with
  | none => sh
  | some (group, off) =>
    segmentIndices.foldl (fun acc s => shadowSetBit acc (registerIndex s group) off (pattern.getLsbD s.val)) sh

/-- `UpdateDigits(start, pats)`: digit k goes to position `start + k`, each skipped on its own (R143). -/
def updateDigits (start : Nat) : List Byte → Vector Byte 16 → Vector Byte 16
  | [], sh => sh
  | p :: ps, sh => updateDigits (start + 1) ps (transposeDigit start p sh)

/-- `Readback(p)`: the pattern a digit position 0-9 holds in the shadow (R148). -/
def readback (p : Nat) (sh : Vector Byte 16) : Option Byte :=
  match anodeLocate p with
  | none => none
  | some (group, off) =>
    some (segmentIndices.foldl
      (fun acc s => acc ||| bitField s.val (sh[registerIndex s group].getLsbD off.val)) 0)

/-- `Flush()`: all sixteen shadow bytes from address 0 (R144). -/
def flush (s : State) : Run Unit := writeRegs 0 s.sh.toList s

/-- `AnodeWrite(start, pats)`: the whole shadow update, then the flush, whatever was skipped (R145, R51). -/
def anodeWrite (start : Nat) (patterns : List Byte) (s : State) : Run Unit :=
  flush { s with sh := updateDigits start patterns s.sh }

/-- `CathodeWrite(start, pats)`: the patterns that fall on positions 0-15, in one register write; none, no traffic
(R146). -/
def cathodeWrite (start : Nat) (patterns : List Byte) (s : State) : Run Unit :=
  let m := cathodeCount start patterns.length
  if m = 0 then .done () s
  else writeRegs (BitVec.ofNat 4 start) (patterns.take m) s

/-- The path an update takes, by the wiring alone (R140). -/
def writeDigits (start : Nat) (patterns : List Byte) (s : State) : Run Unit :=
  match s.wiring with
  | some .commonAnode => anodeWrite start patterns s
  | some .commonCathode => cathodeWrite start patterns s
  | none => .faulted .wiringUnset

end Sys2Proof.Machine
end

