-- ==== Sys2Proof/Machine/KeyScanDecoder.lean ====
section
/-! DEFINITION. The KeyScanDecoder (spec/43_key_scan_decoder.md R160-R163): combinational. -/

namespace Sys2Proof.Machine

/-- Write bit `i` of the mask, other bits unchanged (R11, R160 `m[i] <- x`). -/
def maskSetBit (m : KeyMask) (i : Nat) (x : Bool) : KeyMask :=
  (m &&& ~~~(1#24 <<< i)) ||| ((BitVec.ofBool x).setWidth 24 <<< i)

/-- The two mask bits that key line `line` of scan byte `r` gives: columns `2r` and `2r + 1` (R160). -/
def maskLine (reg : Vector Byte 4) (r : Fin 4) (m : KeyMask) (line : Fin 3) : KeyMask :=
  maskSetBit (maskSetBit m (line.val * 8 + 2 * r.val) (reg[r].getLsbD line.val))
    (line.val * 8 + (2 * r.val + 1)) (reg[r].getLsbD (line.val + 4))

/-- `KeyDecode(reg)` (R160). -/
def keyDecode (reg : Vector Byte 4) : KeyMask :=
  ([0, 1, 2, 3] : List (Fin 4)).foldl
    (fun m r => ([0, 1, 2] : List (Fin 3)).foldl (maskLine reg r) m) 0

/-- The scan bytes of a mask, bits 3 and 7 of each byte 0 (R163's inverse). -/
def keyEncode (m : KeyMask) : Vector Byte 4 :=
  Vector.ofFn fun r : Fin 4 =>
    ([0, 1, 2] : List (Fin 3)).foldl
      (fun b line =>
        b ||| bitField line.val (m.getLsbD (line.val * 8 + 2 * r.val))
          ||| bitField (line.val + 4) (m.getLsbD (line.val * 8 + (2 * r.val + 1)))) 0

/-- The mask in a 32-bit container: bits 24 and up are 0 (92 D24). -/
def maskWord (m : KeyMask) : BitVec 32 := m.setWidth 32

end Sys2Proof.Machine
end

