-- ==== Sys2Proof/Machine/SegmentDecoder.lean ====
section
/-! DEFINITION. The SegmentDecoder (spec/41_segment_decoder.md R120-R122): combinational and total (R12, R125). -/

namespace Sys2Proof.Machine

/-- `HexIndex(v)`: 0-15 stand for themselves, ASCII letters of either case for 10-15, every other value for nothing
(R121). -/
def hexIndex (v : BitVec 7) : Option (Fin 16) :=
  if v.toNat ≤ 15 then some (Fin.ofNat 16 v.toNat)
  else if 0x41 ≤ v.toNat ∧ v.toNat ≤ 0x46 then some (Fin.ofNat 16 (v.toNat - 0x37))
  else if 0x61 ≤ v.toNat ∧ v.toNat ≤ 0x66 then some (Fin.ofNat 16 (v.toNat - 0x57))
  else none

/-- `SegEncode(raw)`: the table's entry, or the blank pattern, with the decimal point of `raw[7]` (R122). -/
def segEncode (lut : Vector Byte 16) (raw : Byte) : Byte :=
  let base : Byte :=
    match hexIndex (raw.setWidth 7) with
    | some i => lut[i]
    | none => 0
  base ||| bitField 7 (raw.getLsbD 7)

/-- The pattern of one hex operand pair (R205, R206). -/
def hexPattern (lut : Vector Byte 16) (value : BitVec 7) (dp : Bool) : Byte := segEncode lut (rawHex value dp)

/-- The segments a pattern lights, by SEG_BITMAP (R78). No rule reads it: it names glyphs. -/
def litSegments (bitmap : Vector Segment 7) (pattern : Byte) : List Segment :=
  ([0, 1, 2, 3, 4, 5, 6] : List (Fin 7)).filterMap fun i =>
    if pattern.getLsbD i.val then some bitmap[i] else none

/-- Whether a pattern lights the decimal point (R78). -/
def litPoint (pattern : Byte) : Bool := pattern.getLsbD 7

end Sys2Proof.Machine
end

