-- ==== Sys2Proof/Machine/Device.lean ====
section
/-! DEFINITION. The meanings of the device operations (spec/45_device_operations.md R200-R208). -/

namespace Sys2Proof.Machine

/-- An operation that returns no mask, from its transport sequence (R240). -/
def plain (r : Run Unit) : Host.Outcome State Fault Refusal := finish (r.bind fun _ s => .done none s)

/-- `initialize(wiring)` on an Unbound block: no transport call (R201, R261, R262). -/
def initializeBody (w : Wiring) (s : State) : State :=
  (forgetChip { s with life := .ready, wiring := some w, sh := zeroShadow, tp := .bound }).respond .ok none

/-- tag 0, `initialize` (R201). -/
def execInitialize (w : Wiring) (s : State) : Host.Outcome State Fault Refusal :=
  ifAdmitted .unbound (fun s => .next (initializeBody w s)) s

/-- tag 1, `configureDisplay` (R202). -/
def execConfigureDisplay (brightness : Nat) (enabled : Bool) (s : State) : Host.Outcome State Fault Refusal :=
  ifAdmitted .ready (fun s => plain (dispCtrl brightness enabled s)) s

/-- tag 2, `setDigit` (R203). -/
def execSetDigit (position : Nat) (pattern : Byte) (s : State) : Host.Outcome State Fault Refusal :=
  ifAdmitted .ready (fun s => plain (writeDigits position [pattern] s)) s

/-- tag 3, `setDigits` (R204). -/
def execSetDigits (start : Nat) (patterns : List Byte) (s : State) : Host.Outcome State Fault Refusal :=
  ifAdmitted .ready (fun s => plain (writeDigits start patterns s)) s

/-- tag 4, `setDigitHex` (R205). -/
def execSetDigitHex (position : Nat) (value : BitVec 7) (dp : Bool) (s : State) :
    Host.Outcome State Fault Refusal :=
  ifAdmitted .ready (fun s => plain (writeDigits position [hexPattern s.cfg.segLut value dp] s)) s

/-- The patterns of a sequence of hex items (R206). -/
def hexPatterns (lut : Vector Byte 16) (items : List (BitVec 7 × Bool)) : List Byte :=
  items.map fun item => hexPattern lut item.1 item.2

/-- tag 5, `setDigitsHex` (R206). -/
def execSetDigitsHex (start : Nat) (items : List (BitVec 7 × Bool)) (s : State) :
    Host.Outcome State Fault Refusal :=
  ifAdmitted .ready (fun s => plain (writeDigits start (hexPatterns s.cfg.segLut items) s)) s

/-- tag 6, `scanKeys` (R207). -/
def execScanKeys (s : State) : Host.Outcome State Fault Refusal :=
  ifAdmitted .ready (fun s => finish ((scanRead s).bind fun reg s => .done (some (keyDecode reg)) s)) s

/-- `shutdown` on a Ready block: no transport call, `sh` and `wiring` keep their values (R208). -/
def shutdownBody (s : State) : State := ({ s with tp := .unbound, life := .released }).respond .ok none

/-- tag 7, `shutdown` (R208). -/
def execShutdown (s : State) : Host.Outcome State Fault Refusal :=
  ifAdmitted .ready (fun s => .next (shutdownBody s)) s

/-- RESERVED_TAG, tags 8-15: refused before any other check (R200, R245, R247). -/
def execReservedTag (_ : BitVec 3) (_ : List Nat) (_ : State) : Host.Outcome State Fault Refusal :=
  .refused .reservedTag

end Sys2Proof.Machine
end

