-- ==== Sys2Proof/Machine/Dispatch.lean ====
section
/-! DEFINITION. One arm per instruction, each a call of its meaning. -/

namespace Sys2Proof.Machine

def exec (i : Instr) (s : State) : Host.Outcome State Fault Refusal :=
  match i with
  -- chip instruction bytes (spec/30_encoding.md sections 1-4)
  | .dataWriteAuto => Sys2Proof.Machine.execDataWriteAuto s
  | .dataReadKeys => Sys2Proof.Machine.execDataReadKeys s
  | .dataWriteFixed => Sys2Proof.Machine.execDataWriteFixed s
  | .dataGeneric rw am tm => Sys2Proof.Machine.execDataGeneric rw am tm s
  | .addrSet a data => Sys2Proof.Machine.execAddrSet a data s
  | .dispCtrl brightness enabled => Sys2Proof.Machine.execDispCtrl brightness enabled s
  | .class00 low => Sys2Proof.Machine.execClass00 low s
  -- request-port operations (spec/45_device_operations.md)
  | .initDevice w => Sys2Proof.Machine.execInitialize w s
  | .configureDisplay brightness enabled => Sys2Proof.Machine.execConfigureDisplay brightness enabled s
  | .setDigit position pattern => Sys2Proof.Machine.execSetDigit position pattern s
  | .setDigits start patterns => Sys2Proof.Machine.execSetDigits start patterns s
  | .setDigitHex position value dp => Sys2Proof.Machine.execSetDigitHex position value dp s
  | .setDigitsHex start items => Sys2Proof.Machine.execSetDigitsHex start items s
  | .scanKeys => Sys2Proof.Machine.execScanKeys s
  | .shutdown => Sys2Proof.Machine.execShutdown s
  | .reservedTag low operands => Sys2Proof.Machine.execReservedTag low operands s

end Sys2Proof.Machine
end

