-- ==== Sys2Proof/Machine/Input.lean ====
section
/-! DEFINITION. What one input of the environment does (spec/00_scope.md R5, spec/45_device_operations.md R200,
spec/60_exceptions.md R245, R253, spec/70_reset_and_hazards.md R260). -/

namespace Sys2Proof.Machine

/-- Run what a packet decodes to, at the state's own layout. -/
def runPacket (p : Packet) (s : State) : Host.Outcome State Fault Refusal :=
  match decode s.cfg.layout p with
  | .ok i => exec i s
  | .error e => .refused (.undecodable e)

/-- One input, already taken from the port: a packet runs to completion, an overlapping request is refused (R245), a
block reset resets the block (R260), a power-on the whole machine (R253). -/
def runInput (i : Input) (s : State) : Host.Outcome State Fault Refusal :=
  match i with
  | .present p => runPacket p s
  | .overlap _ => .refused .overlappingRequest
  | .blockReset => .next s.blockReset
  | .powerOn => .next s.powerOn

/-- The next input of the port (R27, R82); with nothing presented the block waits, unchanged (R246). -/
def takeInput (s : State) : Host.Outcome State Fault Refusal :=
  match s.port with
  | [] => .next s
  | i :: rest => runInput i { s with port := rest }

/-- A packet presented as the next input. -/
def presentPacket (p : Packet) (s : State) : State := { s with port := .present p :: s.port }

end Sys2Proof.Machine
end

