-- ==== Sys2Proof/Machine/Step.lean ====
section
/-! DEFINITION. One step: one whole request, frame or reset, in the order the environment presents them
(spec/00_scope.md R5, spec/10_state.md R27). -/

namespace Sys2Proof.Machine

/-- Take the next input and run it to completion. -/
def step (s : State) : Host.Outcome State Fault Refusal := takeInput s

/-- The opcode table's instruction presented as the next input (notes/assumptions/5.md, 7.md). -/
def State.withFetchWord (s : State) (nbits w : Nat) : State := presentPacket (tablePacket nbits w) s

end Sys2Proof.Machine
end

