-- ==== Sys2Proof/Safety.lean ====
section
/-! DEFINITION. The terms statements use: what the trace of a run is made of (spec/44_transport_interface.md R182,
R185), what a transport is about to answer (R183, R184), the trace an operation has by its rule
(spec/45_device_operations.md), the replay of a trace into the reference observer (spec/20_memory.md R54) and the
invariants of a run. -/

namespace Sys2Proof.Machine

/-! ### Traces -/

/-- The events of one complete frame, with the bytes it reads (R77, R182). -/
def Frame.events (l : CmdLayout) (f : Frame) (answers : List Byte) : List Event :=
  .bracketBegin :: ((f.bytes l).map .wr ++ answers.map .rd ++ [.bracketEnd])

/-- The frames of a trace, each as the packet the chip sees; none when the trace is no sequence of complete brackets
in which written bytes stand before read ones (R185). The first argument is the open bracket, if one is open: its
written bytes and its count of read bytes. -/
def framesFrom : Option (List Byte × Nat) → List Event → Option (List Packet)
  | none, [] => some []
  | some _, [] => none
  | none, .bracketBegin :: es => framesFrom (some ([], 0)) es
  | none, .bracketEnd :: _ => none
  | none, .wr _ :: _ => none
  | none, .rd _ :: _ => none
  | some _, .bracketBegin :: _ => none
  | some (w, r), .wr b :: es => if r = 0 then framesFrom (some (w ++ [b], 0)) es else none
  | some (w, r), .rd _ :: es => if w = [] then none else framesFrom (some (w, r + 1)) es
  | some (w, r), .bracketEnd :: es =>
    if w = [] then none else (framesFrom none es).map fun fs => .frame w r :: fs

/-- The frames of a whole trace. -/
def traceFrames (es : List Event) : Option (List Packet) := framesFrom none es

/-- Whether a bracket is open after a trace (R30): the last bracket edge is a `Begin`. -/
def openAfter (es : List Event) : Bool := es.foldl bracketAfter false

/-- A trace on the data line, bit by bit (R45, R181). -/
def wireBits (es : List Event) : List Bool := es.flatMap Event.bits

/-! ### The observer fed with a trace -/

/-- The frame a decoded chip instruction heads, where the source gives it a meaning (R54). -/
def frameOf (l : CmdLayout) : Instr → Option Frame
  | .dataWriteAuto => some .dcmd
  | .dataReadKeys => some .scan
  | .dataWriteFixed => none
  | .dataGeneric rw am tm => (dataFrame l rw am tm).toOption
  | .addrSet a data => some (.wdata a data)
  | .dispCtrl brightness en => some (.disp brightness en)
  | .class00 _ => none
  | .initDevice _ => none
  | .configureDisplay _ _ => none
  | .setDigit _ _ => none
  | .setDigits _ _ => none
  | .setDigitHex _ _ _ => none
  | .setDigitsHex _ _ => none
  | .scanKeys => none
  | .shutdown => none
  | .reservedTag _ _ => none

/-- One packet seen by the chip: decoded from its bytes, then consumed (R54); none where it is refused. -/
def observePacket (l : CmdLayout) (p : Packet) (c : Chip) : Option Chip :=
  match decode l p with
  | .ok i =>
    match frameOf l i with
    | some f => (c.consume f).toOption
    | none => none
  | .error _ => none

/-- The packets of a trace seen by the chip in order (R54 "in trace order"). -/
def replay (l : CmdLayout) : List Packet → Chip → Option Chip
  | [], c => some c
  | p :: ps, c =>
    match observePacket l p c with
    | some c' => replay l ps c'
    | none => none

/-- A whole trace seen by the chip; none where it is not made of complete frames or one is refused. -/
def replayTrace (l : CmdLayout) (es : List Event) (c : Chip) : Option Chip :=
  match traceFrames es with
  | some ps => replay l ps c
  | none => none

/-! ### What the transport is about to answer -/

/-- The transport after `n` answers (its trace untouched). -/
def Transport.advance : Nat → Transport → Transport
  | 0, t => t
  | n + 1, t => Transport.advance n t.answer.2

/-- Whether the next `n` calls all succeed. -/
def Transport.serves : Nat → Transport → Bool
  | 0, _ => true
  | n + 1, t =>
    match t.answer with
    | (.ok _, t') => Transport.serves n t'
    | (.fail, _) => false

/-- The bytes of the next `n` answers, up to the first failure. -/
def Transport.answers : Nat → Transport → List Byte
  | 0, _ => []
  | n + 1, t =>
    match t.answer with
    | (.ok b, t') => b :: Transport.answers n t'
    | (.fail, _) => []

/-- Whether the next `n` calls succeed and the one after them fails. -/
def Transport.failsAt (n : Nat) (t : Transport) : Bool :=
  t.serves n && (t.advance n).answer.1 == .fail

/-! ### The trace an operation has by its rule -/

/-- The trace of `WriteRegs(a, d)` (R104): `B CMD_WRITE E B AddrInstr(a) d... E`. -/
def writeTrace (l : CmdLayout) (a : BitVec 4) (data : List Byte) : List Event :=
  Frame.dcmd.events l [] ++ (Frame.wdata a data).events l []

/-- The trace of an update of digits (R144-R146). -/
def digitsTrace (start : Nat) (patterns : List Byte) (s : State) : List Event :=
  match s.wiring with
  | some .commonAnode => writeTrace s.cfg.layout 0 (updateDigits start patterns s.sh).toList
  | some .commonCathode =>
    let m := cathodeCount start patterns.length
    if m = 0 then [] else writeTrace s.cfg.layout (BitVec.ofNat 4 start) (patterns.take m)
  | none => []

/-- The trace of a key scan, with the bytes the transport answers to its four reads (R105). -/
def scanTrace (s : State) : List Event :=
  Frame.scan.events s.cfg.layout (Transport.answers scanBytes (s.bus.advance 2))

/-- The shadow after an update of digits (R143, R145, R146). -/
def digitsShadow (start : Nat) (patterns : List Byte) (s : State) : Vector Byte 16 :=
  match s.wiring with
  | some .commonAnode => updateDigits start patterns s.sh
  | some .commonCathode => s.sh
  | none => s.sh

/-- The start position and the patterns of the four digit operations (R203-R206); none for any other instruction. -/
def digitsOf (lut : Vector Byte 16) : Instr → Option (Nat × List Byte)
  | .setDigit position pattern => some (position, [pattern])
  | .setDigits start patterns => some (start, patterns)
  | .setDigitHex position value dp => some (position, [hexPattern lut value dp])
  | .setDigitsHex start items => some (start, hexPatterns lut items)
  | .dataWriteAuto => none
  | .dataReadKeys => none
  | .dataWriteFixed => none
  | .dataGeneric _ _ _ => none
  | .addrSet _ _ => none
  | .dispCtrl _ _ => none
  | .class00 _ => none
  | .initDevice _ => none
  | .configureDisplay _ _ => none
  | .scanKeys => none
  | .shutdown => none
  | .reservedTag _ _ => none

/-- The state after a successful exchange of the events `es`: the transport has answered one call for each, recorded
it, and no bracket is open. -/
def State.exchanged (s : State) (es : List Event) : State :=
  { s with bus := { s.bus.advance es.length with log := s.bus.log ++ es, bracket := false } }

/-- The end of a successful register write of `data` from register `a` on: the exchange of its trace, the chip's
registers written and its mode auto-increment write, the reply Ok (R104, R54). -/
def State.written (s : State) (a : BitVec 4) (data : List Byte) : State :=
  ({ s.exchanged (writeTrace s.cfg.layout a data) with
      chip := { s.chip with amode := .writeAuto, dr := writeRun a.toNat data s.chip.dr } }).respond .ok none

/-- The end of a successful update of digits under CommonAnode (R145): the shadow first, then the whole image. -/
def anodeResult (start : Nat) (patterns : List Byte) (s : State) : State :=
  ({ s with sh := updateDigits start patterns s.sh }).written 0 (updateDigits start patterns s.sh).toList

/-- The end of a successful update of digits under CommonCathode (R146): the positions in 0-15 in one register write;
none, nothing sent. -/
def cathodeResult (start : Nat) (patterns : List Byte) (s : State) : State :=
  if cathodeCount start patterns.length = 0 then s.respond .ok none
  else s.written (BitVec.ofNat 4 start) (patterns.take (cathodeCount start patterns.length))

/-- The number of transport calls of an update of digits (R270): 22 under CommonAnode, `6 + m` for `m` registers under
CommonCathode, 0 when nothing is in range. -/
def digitsCalls (start : Nat) (patterns : List Byte) (s : State) : Nat :=
  match s.wiring with
  | some .commonAnode => 22
  | some .commonCathode =>
    if cathodeCount start patterns.length = 0 then 0 else 6 + cathodeCount start patterns.length
  | none => 0

/-- A block that admits every operation but `initialize` and can make transport calls (R200, R25). -/
def State.operational (s : State) : Prop := s.life = .ready ∧ s.tp = .bound ∧ s.wiring ≠ none

/-- The block's own state and the request port, without the observer of the chip (R20, R54). -/
def State.withoutObserver (s : State) (c : Chip) (n : Nat) : State := { s with chip := c, draws := n }

/-- An outcome's state changed by a function. -/
def mapOutcome (f : State → State) : Host.Outcome State Fault Refusal → Host.Outcome State Fault Refusal
  | .next s => .next (f s)
  | .fault e => .fault e
  | .refused r => .refused r

/-! ### Invariants -/

/-- The lifecycle, the wiring and the binding agree (R21, R22, R25, R201, R208). -/
def State.LifeInv (s : State) : Prop :=
  match s.life with
  | .unbound => s.wiring = none ∧ s.tp = .unbound
  | .ready => s.wiring ≠ none ∧ s.tp = .bound
  | .released => s.wiring ≠ none ∧ s.tp = .unbound

/-- Bits 7:2 of every odd shadow byte are 0 (R24). -/
def State.OddInv (s : State) : Prop :=
  ∀ k : Fin 8, ∀ b : Fin 8, 2 ≤ b.val → (s.sh[registerIndex k 1]).getLsbD b.val = false

/-- The shadow is all zero unless the wiring is CommonAnode (R23). -/
def State.CathodeInv (s : State) : Prop := s.wiring ≠ some .commonAnode → s.sh = zeroShadow

/-- The transport's bracket is the one its trace leaves open (R30). -/
def State.BracketInv (s : State) : Prop := s.bus.bracket = openAfter s.bus.log

/-- The reply is one R240 allows: a status that is returned, and a mask only beside Ok. -/
def State.ReplyInv (s : State) : Prop :=
  ∀ r, s.reply = some r → statusReturned r.status = true ∧ (r.mask ≠ none → r.status = .ok)

end Sys2Proof.Machine
end

