-- ==== Sys2Proof/Certificates/Slice0/Obligations.lean ====
section
/-! DEFINITION. The statements about the model. Each docstring names the rules of the spec it formalises; a clause that
rests on a choice of the model says so. -/

open Sys2Proof Sys2Proof.Machine

/-! ### Reset and the step -/

/-- R260: right after reset the block is Unbound, the wiring and the shadow have no value and the transport binding is
unbound; a block reset presented in any state, power-on or external reset, brings that about. -/
def Obligations.BlockResetUnbindsTheBlock : Prop :=
  (State.reset.life = .unbound ∧ State.reset.wiring = none ∧ State.reset.shadow? = none ∧ State.reset.tp = .unbound) ∧
  ∀ (s : State) (rest : List Input), (s.port = .blockReset :: rest ∨ s.port = .powerOn :: rest) →
    ∃ t, step s = .next t ∧ t.life = .unbound ∧ t.wiring = none ∧ t.shadow? = none ∧ t.tp = .unbound

/-- The model's choice (notes/assumptions/19.md), from R4, R29 and R30, which keep the chip and the transport out of the
block: an external reset of the block leaves the chip, the transport, the parameters and the other inputs alone. -/
def Obligations.BlockResetLeavesTheRest : Prop :=
  ∀ (s : State) (rest : List Input), s.port = .blockReset :: rest →
    ∃ t, step s = .next t ∧ t.chip = s.chip ∧ t.bus = s.bus ∧ t.cfg = s.cfg ∧ t.draws = s.draws ∧ t.port = rest

/-- R27, R82: a request at the head of the port that decodes to an instruction is run as that instruction on the state
with the packet taken. The two rules speak of requests only: that a packet is also a bus frame, and that frames and
requests stand in one presented list, is the model's choice (notes/assumptions/6.md, notes/assumptions/7.md). -/
def Obligations.StepRunsTheDecodedInstruction : Prop :=
  ∀ (s : State) (p : Packet) (rest : List Input) (i : Instr), s.port = .present p :: rest →
    decode s.cfg.layout p = .ok i → step s = exec i { s with port := rest }

/-- How a step ends without an instruction, as the model chose and deduced it. R245 says that a model refuses a request
presented while another operation runs; that it is an input of its own kind, refused at its turn in every state, is
notes/assumptions/18.md. That a packet which is no instruction is refused by name is notes/assumptions/4.md and
notes/assumptions/21.md. That a step with nothing presented keeps the state is deduced from R246
(notes/assumptions/17.md). -/
def Obligations.StepRefusesOverlapsAndIdles : Prop :=
  (∀ (s : State) (p : Packet) (rest : List Input), s.port = .overlap p :: rest →
    step s = .refused .overlappingRequest) ∧
  (∀ (s : State) (p : Packet) (rest : List Input) (e : DecodeError), s.port = .present p :: rest →
    decode s.cfg.layout p = .error e → step s = .refused (.undecodable e)) ∧
  (∀ s : State, s.port = [] → step s = .next s)

/-! ### Encodings -/

/-- R72, R100: in a data instruction the class is CLS_DATA, each of the three bits stands at its layout position and
every other bit of `cmd[5:0]` is 0; the eight operand triples give eight bytes. -/
def Obligations.DataInstructionFields : Prop :=
  ∀ l : CmdLayout, l.ok = true → ∀ rw am tm : Bool,
    classOf (dataInstr l rw am tm) = l.clsData ∧
    (dataInstr l rw am tm).getLsbD l.rwBit = rw ∧
    (dataInstr l rw am tm).getLsbD l.amBit = am ∧
    (dataInstr l rw am tm).getLsbD l.tmBit = tm ∧
    (∀ i : Fin 6, i ≠ l.rwBit → i ≠ l.amBit → i ≠ l.tmBit → (dataInstr l rw am tm).getLsbD i = false) ∧
    (∀ rw' am' tm' : Bool, dataInstr l rw am tm = dataInstr l rw' am' tm' → rw = rw' ∧ am = am' ∧ tm = tm')

/-- R73, R101: in an address instruction the class is CLS_ADDR, bits 5:4 are 0 and bits 3:0 are the start register. That
the builder on a natural gives none past 15 is the model's choice (notes/assumptions/29.md): R101 does not define it and
says that a model may refuse it. -/
def Obligations.AddressInstructionFields : Prop :=
  ∀ l : CmdLayout, (∀ a : BitVec 4, classOf (addrInstr l a) = l.clsAddr ∧
      (addrInstr l a).getLsbD 5 = false ∧ (addrInstr l a).getLsbD 4 = false ∧
      (addrInstr l a).extractLsb' 0 4 = a) ∧
    (∀ n : Nat, n ≤ 15 → addrInstrOf l n = some (addrInstr l (BitVec.ofNat 4 n))) ∧
    (∀ n : Nat, 15 < n → addrInstrOf l n = none)

/-- R74, R102: in a display-control instruction the class is CLS_DISP, bits 2:0 are the brightness modulo 8, the enable
stands at its layout position and every other bit of `cmd[5:3]` is 0. -/
def Obligations.DisplayInstructionFields : Prop :=
  ∀ l : CmdLayout, l.ok = true → ∀ (brightness : Nat) (enabled : Bool),
    classOf (dispInstr l brightness enabled) = l.clsDisp ∧
    ((dispInstr l brightness enabled).extractLsb' 0 3).toNat = brightness % 8 ∧
    (dispInstr l brightness enabled).getLsbD l.dispOnBit = enabled ∧
    (∀ i : Fin 6, 3 ≤ i.val → i ≠ l.dispOnBit → (dispInstr l brightness enabled).getLsbD i = false)

/-- R76, R103: the bytes at the default layout, and a few packets written out from the encodings (R72-R74, R82). The
numeric values are the defaults of R71, general knowledge by the spec's own mark. -/
def Obligations.WordsOfTheDefaultLayoutDecode : Prop :=
  decode CmdLayout.default (.frame [0b01000000#8] 0) = .ok .dataWriteAuto ∧
  decode CmdLayout.default (.frame [0b01000010#8] 4) = .ok .dataReadKeys ∧
  decode CmdLayout.default (.frame [0b11001001#8, 0x7F#8] 0) = .ok (.addrSet 9 [0x7F#8]) ∧
  decode CmdLayout.default (.frame [0b10001101#8] 0) = .ok (.dispCtrl 5 true) ∧
  decode CmdLayout.default (.request 0b0001#4 [9, 1]) = .ok (.configureDisplay 9 true) ∧
  decode CmdLayout.default (.request 0b0101#4 [8, 1, 0, 2, 1]) = .ok (.setDigitsHex 8 [(1#7, false), (2#7, true)]) ∧
  decode CmdLayout.default (.request 0b1001#4 []) = .ok (.reservedTag 1 [])

/-- Decoding undoes encoding: for every layout that meets R71's constraints and every well-formed instruction, with
every operand, the packet its encoding gives decodes to it (R71-R74, R77, R82). -/
def Obligations.DecodeUndoesEncode : Prop :=
  ∀ l : CmdLayout, l.ok = true → ∀ i : Instr, i.wf l = true → decode l (encode l i) = .ok i

/-- Encoding undoes decoding: a packet that decodes is the encoding of what it decodes to, so every instruction has one
packet (R71-R74, R77, R82). -/
def Obligations.EncodeUndoesDecode : Prop :=
  ∀ l : CmdLayout, l.ok = true → ∀ (p : Packet) (i : Instr), decode l p = .ok i → encode l i = p

/-! ### SegmentDecoder -/

/-- R121: which 7-bit values are recognised, and as what. -/
def Obligations.HexIndexRecognises : Prop :=
  ∀ (v : BitVec 7) (i : Fin 16), hexIndex v = some i ↔
    (v.toNat = i.val ∨ (10 ≤ i.val ∧ (v.toNat = i.val + 0x37 ∨ v.toNat = i.val + 0x57)))

/-- R123: a letter of either case and its number give the same pattern, with either decimal point, whatever the table
is. -/
def Obligations.HexLettersFoldCase : Prop :=
  ∀ (lut : Vector Byte 16) (d : Bool) (i : Nat), 10 ≤ i → i ≤ 15 →
    segEncode lut (rawHex (BitVec.ofNat 7 i) d) = segEncode lut (rawHex (BitVec.ofNat 7 (i + 0x37)) d) ∧
    segEncode lut (rawHex (BitVec.ofNat 7 i) d) = segEncode lut (rawHex (BitVec.ofNat 7 (i + 0x57)) d)

/-- R124: the decimal point of the output is that of the input and is never derived from the value, for every table
whose entries have bit 7 = 0 (R120). -/
def Obligations.DecimalPointIsOrthogonal : Prop :=
  ∀ c : Config, c.ok = true → ∀ v : BitVec 7,
    segEncode c.segLut (rawHex v true) = segEncode c.segLut (rawHex v false) ||| 0x80#8 ∧
    (segEncode c.segLut (rawHex v false)).getLsbD 7 = false

/-- R122, R125: the output is the table's entry or the blank pattern, with the decimal point; 28 of the 128 values are
recognised. -/
def Obligations.SegmentDecoderIsTotal : Prop :=
  (∀ (lut : Vector Byte 16) (v : BitVec 7) (d : Bool), hexIndex v = none →
    segEncode lut (rawHex v d) = (if d then 0x80#8 else 0x00#8)) ∧
  (∀ (lut : Vector Byte 16) (v : BitVec 7) (d : Bool) (i : Fin 16), hexIndex v = some i →
    segEncode lut (rawHex v d) = lut[i] ||| (if d then 0x80#8 else 0x00#8)) ∧
  ((List.range 128).filter fun n => (hexIndex (BitVec.ofNat 7 n)).isSome).length = 28

/-! ### DisplayRegisterMap -/

/-- R141. -/
def Obligations.AnodePositionsLocate : Prop :=
  ∀ p : Nat, (p ≤ 7 → ∃ off, anodeLocate p = some (0, off) ∧ off.val = p) ∧
    (8 ≤ p → p ≤ 9 → ∃ off, anodeLocate p = some (1, off) ∧ off.val = p - 8) ∧
    (10 ≤ p → anodeLocate p = none)

/-- R142: the pattern's bit `s` goes to bit `off` of register `2*s + group`, every other bit of the shadow keeps its
value, and a position outside 0-9 changes nothing. -/
def Obligations.TransposeWritesOneDigit : Prop :=
  ∀ (p : Nat) (pattern : Byte) (sh : Vector Byte 16),
    (anodeLocate p = none → transposeDigit p pattern sh = sh) ∧
    (∀ group off, anodeLocate p = some (group, off) →
      ∀ (s : Fin 8) (g : Fin 2) (b : Fin 8),
        ((transposeDigit p pattern sh)[registerIndex s g]).getLsbD b =
          if g = group ∧ b = off then pattern.getLsbD s else (sh[registerIndex s g]).getLsbD b)

/-- R147: the cells of two digits are disjoint, the ten digits cover exactly the even bytes and bits 1:0 of the odd
bytes, writing one digit leaves the read-back of every other one, and the same update twice gives the same image. -/
def Obligations.DigitsAreDisjoint : Prop :=
  (∀ p q gp op gq oq, p ≠ q → anodeLocate p = some (gp, op) → anodeLocate q = some (gq, oq) →
    ∀ s s' : Fin 8, (registerIndex s gp, op) ≠ (registerIndex s' gq, oq)) ∧
  (∀ (r : Fin 16) (b : Fin 8),
    (∃ p g o, ∃ s : Fin 8, anodeLocate p = some (g, o) ∧ registerIndex s g = r ∧ o = b) ↔
      (r.val % 2 = 0 ∨ b.val < 2)) ∧
  (∀ p q, p ≠ q → ∀ (x : Byte) (sh : Vector Byte 16), readback q (transposeDigit p x sh) = readback q sh) ∧
  (∀ (start : Nat) (pats : List Byte) (sh : Vector Byte 16),
    updateDigits start pats (updateDigits start pats sh) = updateDigits start pats sh)

/-- R148: a digit reads back the pattern last written to it, whatever else the shadow holds, and 0 from a zero
shadow. -/
def Obligations.DigitsReadBack : Prop :=
  (∀ (p : Nat) (pattern : Byte) (sh : Vector Byte 16), p ≤ 9 →
    readback p (transposeDigit p pattern sh) = some pattern) ∧
  (∀ p : Nat, p ≤ 9 → readback p zeroShadow = some 0#8) ∧
  (∀ (p : Nat) (sh : Vector Byte 16), 10 ≤ p → readback p sh = none)

/-- R143: each pattern goes to its own position `start + k`, one outside 0-9 is skipped on its own, and the digits
outside the update keep their patterns. -/
def Obligations.UpdateWritesEachDigit : Prop :=
  ∀ (start : Nat) (pats : List Byte) (sh : Vector Byte 16),
    (∀ k (h : k < pats.length), start + k ≤ 9 →
      readback (start + k) (updateDigits start pats sh) = some pats[k]) ∧
    (∀ q, (q < start ∨ start + pats.length ≤ q) →
      readback q (updateDigits start pats sh) = readback q sh) ∧
    (10 ≤ start → updateDigits start pats sh = sh)

/-! ### KeyScanDecoder -/

/-- R160, R162: mask bit `L*8 + 2r` is bit L of scan byte r, and mask bit `L*8 + 2r + 1` its bit L + 4. -/
def Obligations.KeyDecodeBits : Prop :=
  ∀ (reg : Vector Byte 4) (r : Fin 4) (line : Fin 3),
    (keyDecode reg).getLsbD (line.val * 8 + 2 * r.val) = (reg[r]).getLsbD line.val ∧
    (keyDecode reg).getLsbD (line.val * 8 + 2 * r.val + 1) = (reg[r]).getLsbD (line.val + 4)

/-- R161, R163: two scans give the same mask exactly when they agree on the 24 used bits, so bits 3 and 7 are ignored,
and every mask is the mask of some scan. -/
def Obligations.KeyDecodeIsABijection : Prop :=
  (∀ reg reg' : Vector Byte 4, keyDecode reg = keyDecode reg' ↔
    ∀ r : Fin 4, ∀ line : Fin 3, (reg[r]).getLsbD line.val = (reg'[r]).getLsbD line.val ∧
      (reg[r]).getLsbD (line.val + 4) = (reg'[r]).getLsbD (line.val + 4)) ∧
  (∀ m : KeyMask, keyDecode (keyEncode m) = m)

/-! ### Transport -/

/-- R181: a byte crosses the wire with bit k at place k, and the eight bits that arrive make the byte they came from. -/
def Obligations.BytesCrossTheWireLowBitFirst : Prop :=
  (∀ (b : Byte) (k : Fin 8), (serialize b)[k.val]? = some (b.getLsbD k)) ∧
  (∀ b : Byte, (serialize b).length = 8 ∧ deserialize (serialize b) = b) ∧
  (∀ q : List Bool, q.length = 8 → serialize (deserialize q) = q)

/-- R184, R182: `writeBytes` whose calls succeed records one event per byte, in order; a failing call adds no event and
ends the sequence there. -/
def Obligations.WriteBytesRecordsEachByte : Prop :=
  ∀ (bs : List Byte) (s : State), s.tp = .bound →
    (s.bus.serves bs.length = true → ∃ t, writeBytes bs s = .done () t ∧ t.bus.log = s.bus.log ++ bs.map .wr ∧
      t = { s with bus := t.bus }) ∧
    (∀ k, k < bs.length → s.bus.failsAt k = true → ∃ t, writeBytes bs s = .failed t ∧
      t.bus.log = s.bus.log ++ (bs.take k).map .wr ∧ t = { s with bus := t.bus })

/-! ### Where each instruction completes -/

/-- R201, R261, R262: on an Unbound block `initialize` returns Ok with no transport event, the block Ready, the wiring
set, the shadow zero and the transport bound; the chip's state is unknown (free values). -/
def Obligations.InitializeCompletes : Prop :=
  ∀ (w : Wiring) (s : State), s.life = .unbound →
    exec (.initDevice w) s = .next { s with
      life := .ready, wiring := some w, sh := zeroShadow, tp := .bound,
      chip := Chip.drawn s.draws, draws := s.draws + drawStride,
      reply := some { status := .ok, mask := none } }

/-- R202, R106, R102: on an operational block whose transport answers three calls, `configureDisplay` emits the one
frame with the brightness modulo 8, returns Ok, and the chip takes brightness and enable. -/
def Obligations.ConfigureDisplayCompletes : Prop :=
  ∀ (brightness : Nat) (enabled : Bool) (s : State), s.operational → s.bus.serves 3 = true →
    exec (.configureDisplay brightness enabled) s = .next (({ s.exchanged
        [.bracketBegin, .wr (dispInstr s.cfg.layout brightness enabled), .bracketEnd] with
        chip := { s.chip with bright := BitVec.ofNat 3 (brightness % 8), dispOn := enabled } }).respond .ok none)

/-- R203-R206 under CommonAnode (R140-R145): with 22 calls answered, each of the four digit operations updates the shadow,
sends the full image and returns Ok, and the chip's registers are the shadow (R55). -/
def Obligations.AnodeUpdatesComplete : Prop :=
  ∀ s : State, s.life = .ready → s.tp = .bound → s.wiring = some .commonAnode → s.bus.serves 22 = true →
    (∀ p x, exec (.setDigit p x) s = .next (anodeResult p [x] s)) ∧
    (∀ p xs, exec (.setDigits p xs) s = .next (anodeResult p xs s)) ∧
    (∀ p v d, exec (.setDigitHex p v d) s = .next (anodeResult p [segEncode s.cfg.segLut (rawHex v d)] s)) ∧
    (∀ p items, exec (.setDigitsHex p items) s =
      .next (anodeResult p (items.map fun it => segEncode s.cfg.segLut (rawHex it.1 it.2)) s))

/-- R203-R206 under CommonCathode (R146): with the write's calls answered, each of the four digit operations sends the
patterns that fall on positions 0-15 in one register write, or nothing, and returns Ok; the shadow is not touched. The
last clause says in plain numbers what that write is: nothing is called and nothing changes but the reply when the start
is past 15 or there is no pattern, otherwise the first 16 - start patterns go out, pattern k to register start + k, and
every other register keeps its value. -/
def Obligations.CathodeUpdatesComplete : Prop :=
  ∀ s : State, s.life = .ready → s.tp = .bound → s.wiring = some .commonCathode →
    (∀ p x, s.bus.serves (digitsCalls p [x] s) = true →
      exec (.setDigit p x) s = .next (cathodeResult p [x] s)) ∧
    (∀ p xs, s.bus.serves (digitsCalls p xs s) = true →
      exec (.setDigits p xs) s = .next (cathodeResult p xs s)) ∧
    (∀ p v d, s.bus.serves (digitsCalls p [segEncode s.cfg.segLut (rawHex v d)] s) = true →
      exec (.setDigitHex p v d) s = .next (cathodeResult p [segEncode s.cfg.segLut (rawHex v d)] s)) ∧
    (∀ p items, s.bus.serves
        (digitsCalls p (items.map fun it => segEncode s.cfg.segLut (rawHex it.1 it.2)) s) = true →
      exec (.setDigitsHex p items) s =
        .next (cathodeResult p (items.map fun it => segEncode s.cfg.segLut (rawHex it.1 it.2)) s)) ∧
    (∀ start pats,
      (16 ≤ start ∨ pats = [] → digitsCalls start pats s = 0 ∧ cathodeResult start pats s = s.respond .ok none) ∧
      (start < 16 → pats ≠ [] → digitsCalls start pats s = 6 + min pats.length (16 - start) ∧
        (cathodeResult start pats s).bus.log =
          s.bus.log ++ writeTrace s.cfg.layout (BitVec.ofNat 4 start) (pats.take (16 - start))) ∧
      (∀ k (h : k < pats.length) (h' : start + k < 16),
        (cathodeResult start pats s).chip.dr[start + k] = pats[k]) ∧
      (∀ r (h : r < 16), (r < start ∨ start + pats.length ≤ r) →
        (cathodeResult start pats s).chip.dr[r] = s.chip.dr[r]))

/-- R207, R105, R43: on an operational block whose transport keeps the bracket and answers seven calls, the last four of
the first six with the bytes `a b c d`, `scanKeys` emits the scan frame and returns Ok with the mask of those bytes. -/
def Obligations.ScanKeysCompletes : Prop :=
  ∀ (s : State) (a b c d : Byte), s.operational → s.bus.keepsBracket = true → s.bus.serves 7 = true →
    Transport.answers 4 (s.bus.advance 2) = [a, b, c, d] →
    exec .scanKeys s = .next (({ s.exchanged [.bracketBegin, .wr (cmdRead s.cfg.layout), .rd a, .rd b, .rd c, .rd d,
        .bracketEnd] with chip := { s.chip with amode := .unknown } }).respond .ok (some (keyDecode #v[a, b, c, d])))

/-- R208: on a Ready block `shutdown` returns Ok with no transport event, releases the transport and keeps the shadow and
the wiring. -/
def Obligations.ShutdownCompletes : Prop :=
  ∀ s : State, s.life = .ready →
    exec .shutdown s = .next { s with
      life := .released, tp := .unbound, reply := some { status := .ok, mask := none } }

/-- R54: what the write command, the read command and the display-control byte do to the observer, in every state; the
general data instruction with the bits of the write or of the read command is that command (R76). That the byte is
executed as a frame at the observer, and that block, trace and reply stay, is the model's choice
(notes/assumptions/6.md). -/
def Obligations.CommandFramesComplete : Prop :=
  (∀ s : State, exec .dataWriteAuto s = .next { s with chip := { s.chip with amode := .writeAuto } }) ∧
  (∀ s : State, exec .dataReadKeys s = .next { s with chip := { s.chip with amode := .unknown } }) ∧
  (∀ (s : State) b en, exec (.dispCtrl b en) s = .next { s with chip := { s.chip with bright := b, dispOn := en } }) ∧
  (∀ s : State, exec (.dataGeneric false false false) s =
    .next { s with chip := { s.chip with amode := .writeAuto } }) ∧
  (∀ (s : State) am, am = s.cfg.layout.readAm → exec (.dataGeneric true am false) s =
    .next { s with chip := { s.chip with amode := .unknown } })

/-- R54, R42: an address frame of `1 <= n` data bytes with `a + n <= 16`, in auto-increment write mode, puts byte k in
register `a + k` and changes no other register, mode, enable or brightness. That the byte is executed as a frame at the
observer, and that block, trace and reply stay, is the model's choice (notes/assumptions/6.md). -/
def Obligations.AddressFramesComplete : Prop :=
  ∀ (s : State) (a : BitVec 4) (data : List Byte), s.chip.amode = .writeAuto → 1 ≤ data.length →
    a.toNat + data.length ≤ 16 →
    ∃ t, exec (.addrSet a data) s = .next t ∧ t = { s with chip := { s.chip with dr := t.chip.dr } } ∧
      (∀ k (h : k < data.length) (h' : a.toNat + k < 16), t.chip.dr[a.toNat + k] = data[k]) ∧
      (∀ i (h : i < 16), (i < a.toNat ∨ a.toNat + data.length ≤ i) → t.chip.dr[i] = s.chip.dr[i])

/-! ### Where an instruction stops -/

/-- R54, R75, R200, R245: the frames the source gives no meaning and the reserved tags are refused by name, in every
state; the address frame is refused outside auto-increment write mode, without data, and past register 15. That it is
refused in the unknown mode too is the model's choice (notes/assumptions/15.md): R54 calls an unknown mode a draw. -/
def Obligations.FramesWithoutMeaningAreRefused : Prop :=
  (∀ s : State, exec .dataWriteFixed s = .refused .fixedAddressing) ∧
  (∀ (s : State) low, exec (.class00 low) s = .refused .fourthClass) ∧
  (∀ (s : State) low ops, exec (.reservedTag low ops) s = .refused .reservedTag) ∧
  (∀ (s : State) rw am, exec (.dataGeneric rw am true) s = .refused .testMode) ∧
  (∀ s : State, exec (.dataGeneric false true false) s = .refused .fixedAddressing) ∧
  (∀ (s : State) am, am ≠ s.cfg.layout.readAm → exec (.dataGeneric true am false) s = .refused .readAddressing) ∧
  (∀ (s : State) a data, s.chip.amode ≠ .writeAuto → exec (.addrSet a data) s = .refused .addressWithoutWrite) ∧
  (∀ (s : State) a data, s.chip.amode = .writeAuto → (data = [] ∨ 16 < a.toNat + data.length) →
    exec (.addrSet a data) s = .refused .registerRange)

/-- R244: an operation that is not admitted returns NotReady and changes nothing else. -/
def Obligations.NotReadyHasNoEffect : Prop :=
  ∀ s : State,
    (s.life ≠ .unbound → ∀ w, exec (.initDevice w) s = .next (s.respond .notReady none)) ∧
    (s.life ≠ .ready →
      (∀ b en, exec (.configureDisplay b en) s = .next (s.respond .notReady none)) ∧
      (∀ p x, exec (.setDigit p x) s = .next (s.respond .notReady none)) ∧
      (∀ p xs, exec (.setDigits p xs) s = .next (s.respond .notReady none)) ∧
      (∀ p v d, exec (.setDigitHex p v d) s = .next (s.respond .notReady none)) ∧
      (∀ p items, exec (.setDigitsHex p items) s = .next (s.respond .notReady none)) ∧
      exec .scanKeys s = .next (s.respond .notReady none) ∧
      exec .shutdown s = .next (s.respond .notReady none))

/-! ### Transport failures -/

/-- R184, R248: in each of the four digit operations the first failing call ends the operation with TransportError; the
trace has grown by exactly the events before it, the whole shadow update stays, and the lifecycle, the wiring, the
binding and the configuration are unchanged. -/
def Obligations.FailedUpdateKeepsItsPrefix : Prop :=
  ∀ (s : State) (i : Instr) (start : Nat) (pats : List Byte) (k : Nat), s.operational →
    digitsOf s.cfg.segLut i = some (start, pats) → k < digitsCalls start pats s → s.bus.failsAt k = true →
    ∃ t, exec i s = .next t ∧ t.reply = some { status := .transportError, mask := none } ∧
      t.bus.log = s.bus.log ++ (digitsTrace start pats s).take k ∧
      t.sh = digitsShadow start pats s ∧
      t.life = s.life ∧ t.wiring = s.wiring ∧ t.tp = s.tp ∧ t.cfg = s.cfg ∧ t.port = s.port

/-- R184, R248: the same of `configureDisplay` and of `scanKeys`, which write no block state, with no mask returned. R54:
the observer after their cut frame keeps all its display registers, since neither frame addresses one, and its mode, its
brightness and its enable are unknown, the last two free values at the draw counter. That a frame which addresses no
register leaves every one is the model's reading (notes/assumptions/14.md), how a free value is drawn its choice
(notes/assumptions/9.md). -/
def Obligations.FailedCommandKeepsItsPrefix : Prop :=
  ∀ (s : State) (k : Nat), s.operational → s.bus.failsAt k = true →
    (∀ b en, k < 3 → ∃ t, exec (.configureDisplay b en) s = .next t ∧
      t.reply = some { status := .transportError, mask := none } ∧
      t.bus.log = s.bus.log ++
        [Event.bracketBegin, .wr (dispInstr s.cfg.layout b en), .bracketEnd].take k ∧
      t.sh = s.sh ∧ t.life = s.life ∧ t.wiring = s.wiring ∧ t.tp = s.tp ∧ t.cfg = s.cfg ∧ t.port = s.port ∧
      t.chip = { s.chip with
        amode := .unknown, bright := Config.drawLevel s.draws, dispOn := Config.drawBit s.draws }) ∧
    (k < 7 → s.bus.keepsBracket = true → ∃ t, exec .scanKeys s = .next t ∧
      t.reply = some { status := .transportError, mask := none } ∧
      t.bus.log = s.bus.log ++ (scanTrace s).take k ∧
      t.sh = s.sh ∧ t.life = s.life ∧ t.wiring = s.wiring ∧ t.tp = s.tp ∧ t.cfg = s.cfg ∧ t.port = s.port ∧
      t.chip = { s.chip with
        amode := .unknown, bright := Config.drawLevel s.draws, dispOn := Config.drawBit s.draws })

/-- R54, R248: after a failed update of digits the chip's addressing mode, its brightness and its enable are unknown, and
so is every register the cut frame could address. The cut frame is the write command, which addresses none, when one of
its three calls failed; past them it is the address frame: all sixteen registers under CommonAnode, and those from start
to start + n - 1 under CommonCathode. That every other register keeps its value is the model's reading of R54
(notes/assumptions/14.md), how an unknown value is drawn at the draw counter its choice (notes/assumptions/9.md). -/
def Obligations.FailedUpdateLeavesTheChipUnknown : Prop :=
  ∀ (s : State) (i : Instr) (start : Nat) (pats : List Byte) (k : Nat), s.operational →
    digitsOf s.cfg.segLut i = some (start, pats) → k < digitsCalls start pats s → s.bus.failsAt k = true →
    ∃ t, exec i s = .next t ∧ t.chip.amode = .unknown ∧
      t.chip.bright = Config.drawLevel s.draws ∧ t.chip.dispOn = Config.drawBit s.draws ∧
      (k < 3 → t.chip.dr = s.chip.dr) ∧
      (3 ≤ k → s.wiring = some .commonAnode → ∀ r (h : r < 16), t.chip.dr[r] = Config.drawByte (s.draws + r)) ∧
      (3 ≤ k → s.wiring = some .commonCathode → ∀ r (h : r < 16), t.chip.dr[r] =
        if start ≤ r ∧ r < start + pats.length then Config.drawByte (s.draws + r) else s.chip.dr[r])

/-- R105, R186: a transport that drops the bracket before the reads is outside the spec: the scan is refused once the
read command has gone out. -/
def Obligations.DroppedBracketIsRefused : Prop :=
  ∀ s : State, s.operational → s.bus.keepsBracket = false → s.bus.serves 2 = true →
    exec .scanKeys s = .refused .bracketDropped

/-! ### Frames: what an instruction leaves unchanged -/

/-- R54: a chip frame changes the observer's registers only as an address frame, and its brightness and enable only as a
display-control frame. That it leaves the block, the transport with its trace and the reply is the model's choice
(notes/assumptions/6.md). -/
def Obligations.ChipFramesTouchOnlyTheObserver : Prop :=
  ∀ (i : Instr) (s t : State), i.isRequest = false → exec i s = .next t →
    t = { s with chip := t.chip } ∧
    (t.chip.dr ≠ s.chip.dr → ∃ a data, i = .addrSet a data) ∧
    ((t.chip.bright ≠ s.chip.bright ∨ t.chip.dispOn ≠ s.chip.dispOn) → ∃ b en, i = .dispCtrl b en)

/-- R21, R22, R23, R25, R51: what every request leaves unchanged, whatever its status. The lifecycle, the wiring and the
binding change only by `initialize` and `shutdown`; the shadow only by `initialize` and, under CommonAnode, by the four
digit operations, as their rule says; the trace only grows; the parameters, the other inputs, the realisation of the
transport and its direction duty never change. -/
def Obligations.RequestFrame : Prop :=
  ∀ (i : Instr) (s t : State), i.isRequest = true → exec i s = .next t →
    t.cfg = s.cfg ∧ t.port = s.port ∧ t.bus.kind = s.bus.kind ∧ t.bus.keepsBracket = s.bus.keepsBracket ∧
    (∃ es, t.bus.log = s.bus.log ++ es) ∧
    ((t.life ≠ s.life ∨ t.tp ≠ s.tp) → (∃ w, i = .initDevice w) ∨ i = .shutdown) ∧
    (t.wiring ≠ s.wiring → ∃ w, i = .initDevice w ∧ s.life = .unbound ∧ t.wiring = some w) ∧
    (∀ start pats, digitsOf s.cfg.segLut i = some (start, pats) →
      t.sh = if s.life = .ready then digitsShadow start pats s else s.sh) ∧
    (digitsOf s.cfg.segLut i = none → (∀ w, i ≠ .initDevice w) → t.sh = s.sh)

/-! ### Promises about every operation -/

/-- R21: the only moves of the lifecycle are Unbound to Ready by `initialize`, Ready to Released by `shutdown`, and any
state to Unbound by a block reset, external or at power-on (R260). -/
def Obligations.LifecycleMoves : Prop :=
  ∀ s t : State, step s = .next t → t.life ≠ s.life →
    (s.life = .unbound ∧ t.life = .ready) ∨ (s.life = .ready ∧ t.life = .released) ∨
    (t.life = .unbound ∧ ∃ rest, s.port = .blockReset :: rest ∨ s.port = .powerOn :: rest)

/-- R240, R248: an operational block whose transport keeps the bracket answers every request but a reserved tag: with a
status, and a mask beside Ok of `scanKeys` alone. -/
def Obligations.EveryRequestIsAnswered : Prop :=
  ∀ (i : Instr) (s : State), s.operational → s.bus.keepsBracket = true → i.isRequest = true →
    (∀ low ops, i ≠ .reservedTag low ops) →
    ∃ t r, exec i s = .next t ∧ t.reply = some r ∧ (r.mask ≠ none ↔ (i = .scanKeys ∧ r.status = .ok))

/-- R20, R140: a step of a machine whose lifecycle, wiring and binding agree never faults. -/
def Obligations.NoFaultFromALiveMachine : Prop :=
  ∀ (s : State) (e : Fault), s.LifeInv → step s ≠ .fault e

/-- R185, R107: the trace of an operation that returns Ok is a sequence of complete frames. -/
def Obligations.OkTraceIsCompleteFrames : Prop :=
  ∀ (i : Instr) (s t : State) (m : Option KeyMask), i.isRequest = true → exec i s = .next t →
    t.reply = some { status := .ok, mask := m } →
    ∃ es ps, t.bus.log = s.bus.log ++ es ∧ traceFrames es = some ps

/-- R75, R76, R77, R107: at every layout that meets R71's constraints, each frame of an operation that returns Ok decodes
to a well-formed write command, read command, address frame or display-control byte, and to nothing else. -/
def Obligations.OnlyTheEmittedFrames : Prop :=
  ∀ (i : Instr) (s t : State) (m : Option KeyMask) (es : List Event) (ps : List Packet),
    s.cfg.layout.ok = true → i.isRequest = true → exec i s = .next t →
    t.reply = some { status := .ok, mask := m } → t.bus.log = s.bus.log ++ es → traceFrames es = some ps →
    ∀ p ∈ ps, ∃ j, decode s.cfg.layout p = .ok j ∧ j.wf s.cfg.layout = true ∧
      (j = .dataWriteAuto ∨ j = .dataReadKeys ∨ (∃ a data, j = .addrSet a data) ∨ (∃ b en, j = .dispCtrl b en))

/-- R54: the observer the model carries is the one R54 defines on the trace: feeding it the bytes the operation put on
the bus, frame by frame and decoded from them, gives the chip the step leaves. `initialize` makes no call and is left
out: it makes the chip unknown. -/
def Obligations.ObserverFollowsTheTrace : Prop :=
  ∀ (i : Instr) (s t : State) (m : Option KeyMask), s.cfg.layout.ok = true → i.isRequest = true →
    (∀ w, i ≠ .initDevice w) → exec i s = .next t → t.reply = some { status := .ok, mask := m } →
    ∃ es, t.bus.log = s.bus.log ++ es ∧ replayTrace s.cfg.layout es s.chip = some t.chip

/-- R54 "The block's rules never read it": a request does the same to the block, the transport and the reply whatever
the observer holds. -/
def Obligations.TheBlockNeverReadsTheObserver : Prop :=
  ∀ (i : Instr) (s : State) (c c' : Chip) (n n' : Nat), i.isRequest = true →
    mapOutcome (fun t => t.withoutObserver c' n') (exec i (s.withoutObserver c n)) =
      mapOutcome (fun t => t.withoutObserver c' n') (exec i s)

/-- R187: an instruction does the same whichever realisation the transport is. -/
def Obligations.TheRealisationDoesNotMatter : Prop :=
  ∀ (i : Instr) (s : State) (k : TransportKind),
    exec i { s with bus := { s.bus with kind := k } } =
      mapOutcome (fun t => { t with bus := { t.bus with kind := k } }) (exec i s)

/-- R55: after `setDigit A, P` under CommonCathode with A in 0-15 returns Ok the observer holds `dr[A] = P`; after any
digit operation under CommonAnode returns Ok it holds `dr = sh`. -/
def Obligations.ObserverMirrorsTheDisplay : Prop :=
  (∀ (s t : State) (a : Nat) (p : Byte) (h : a < 16), s.life = .ready → s.wiring = some .commonCathode →
    exec (.setDigit a p) s = .next t → t.reply = some { status := .ok, mask := none } → t.chip.dr[a] = p) ∧
  (∀ (s t : State) (i : Instr) (start : Nat) (pats : List Byte), s.life = .ready →
    s.wiring = some .commonAnode → digitsOf s.cfg.segLut i = some (start, pats) →
    exec i s = .next t → t.reply = some { status := .ok, mask := none } → t.chip.dr = t.sh)

/-- R270: the number of events an operation that returns Ok adds to the trace; R201, R208: `initialize` and `shutdown` add
none. -/
def Obligations.EventCounts : Prop :=
  ∀ (i : Instr) (s t : State) (m : Option KeyMask), i.isRequest = true → exec i s = .next t →
    t.reply = some { status := .ok, mask := m } →
    ((∃ b en, i = .configureDisplay b en) → t.bus.log.length = s.bus.log.length + 3) ∧
    (i = .scanKeys → t.bus.log.length = s.bus.log.length + 7) ∧
    (∀ start pats, digitsOf s.cfg.segLut i = some (start, pats) →
      t.bus.log.length = s.bus.log.length + digitsCalls start pats s) ∧
    ((∃ w, i = .initDevice w) ∨ i = .shutdown → t.bus.log = s.bus.log)

/-- R84: a single-digit update is the multi-digit one of one pattern, and the hex forms are the plain forms of their
encoded patterns, in every state. -/
def Obligations.PseudoFormsAreTheirExpansions : Prop :=
  ∀ s : State,
    (∀ p x, exec (.setDigit p x) s = exec (.setDigits p [x]) s) ∧
    (∀ p v d, exec (.setDigitHex p v d) s = exec (.setDigit p (segEncode s.cfg.segLut (rawHex v d))) s) ∧
    (∀ p items, exec (.setDigitsHex p items) s =
      exec (.setDigits p (items.map fun it => segEncode s.cfg.segLut (rawHex it.1 it.2))) s)

/-! ### Invariants that every step keeps -/

/-- The five invariants hold right after reset. Of the shadow they say what the model chose (notes/assumptions/11.md):
before `initialize` the spec gives it no value, the model holds it zero. -/
def Obligations.ResetMeetsTheInvariants : Prop :=
  State.reset.LifeInv ∧ State.reset.OddInv ∧ State.reset.CathodeInv ∧ State.reset.BracketInv ∧ State.reset.ReplyInv

/-- R21, R22, R25: the lifecycle, the wiring and the binding agree. -/
def Obligations.StepKeepsTheLifecycleConsistent : Prop :=
  ∀ s t : State, s.LifeInv → step s = .next t → t.LifeInv

/-- R24: bits 7:2 of every odd shadow byte are 0 from `initialize` on, and stay so at every step; that a block reset and
a power-on keep it is the model's zero shadow (notes/assumptions/11.md). -/
def Obligations.StepKeepsTheOddBytesClear : Prop :=
  ∀ s t : State, s.OddInv → step s = .next t → t.OddInv

/-- R23: the shadow stays all zero unless the wiring is CommonAnode; that it is so while Unbound is the model's zero shadow
(notes/assumptions/11.md). -/
def Obligations.StepKeepsTheCathodeShadowZero : Prop :=
  ∀ s t : State, s.CathodeInv → step s = .next t → t.CathodeInv

/-- R30: the transport's bracket is the one its trace leaves open. That a failing `TxBegin` or `TxEnd`, which records no
event, leaves the bracket as it was is the model's choice (notes/assumptions/28.md). -/
def Obligations.StepKeepsTheBracketOfTheTrace : Prop :=
  ∀ s t : State, s.BracketInv → step s = .next t → t.BracketInv

/-- R240, R242, R243: no step leaves a reply of status InvalidAddress or UnrecognizedDigitValue, or a mask beside another
status than Ok. -/
def Obligations.StepKeepsTheReplyLegal : Prop :=
  ∀ s t : State, s.ReplyInv → step s = .next t → t.ReplyInv

/-- R26, R7: no step changes the configuration. -/
def Obligations.StepKeepsTheConfiguration : Prop :=
  ∀ s t : State, step s = .next t → t.cfg = s.cfg

/-! ### Power loss -/

/-- R253, R260: after a power-on presented in any state the machine is the one of State.reset: no field of the block, of
the chip or of the trace is kept. What goes on is no state that power keeps, by the model's choice
(notes/assumptions/30.md): the parameters, what the transport is and will answer, the counters of the free values, and
the later inputs; the chip is unknown, at free values (notes/assumptions/9.md). -/
def Obligations.PowerOnIsTheResetMachine : Prop :=
  ∀ (s : State) (rest : List Input), s.port = .powerOn :: rest →
    step s = .next { State.reset with
      cfg := s.cfg,
      bus := { Transport.fresh with
        kind := s.bus.kind, keepsBracket := s.bus.keepsBracket, script := s.bus.script, drawn := s.bus.drawn },
      chip := Chip.drawn s.draws, draws := s.draws + drawStride, port := rest }

/-- R253 "No state persists across power loss": two machines that differ in any way in the block's state, the chip, the
trace, the open bracket and the last reply do the same at a power-on. What they share is no state that power keeps, by
the model's choice (notes/assumptions/30.md). -/
def Obligations.NothingPersistsAcrossPowerLoss : Prop :=
  ∀ (s : State) (rest : List Input) (life : Life) (wiring : Option Wiring) (sh : Vector Byte 16) (tp : Binding)
    (chip : Chip) (bracket : Bool) (log : List Event) (reply : Option Response), s.port = .powerOn :: rest →
    step { s with
      life := life, wiring := wiring, sh := sh, tp := tp, chip := chip,
      bus := { s.bus with bracket := bracket, log := log }, reply := reply } = step s
end

