-- ==== Sys2Proof/Laws/Combinational.lean ====
section
/-! SUPPORT. The SegmentDecoder on an assembled byte and the bits of the KeyScanDecoder, said once. -/

namespace Sys2Proof.Machine

theorem rawHex_low (v : BitVec 7) (d : Bool) : (rawHex v d).setWidth 7 = v := by
  cases d <;> revert v <;> decide

theorem rawHex_high (v : BitVec 7) (d : Bool) : (rawHex v d).getLsbD 7 = d := by
  cases d <;> revert v <;> decide

/-- The SegmentDecoder on an assembled byte (R122). -/
theorem segEncode_rawHex (lut : Vector Byte 16) (v : BitVec 7) (d : Bool) : segEncode lut (rawHex v d) =
    (match hexIndex v with | some i => lut[i] | none => 0) ||| bitField 7 d := by
  cases hv : hexIndex v <;> simp only [segEncode, rawHex_low, rawHex_high, hv]

/-- A written mask bit, and the others kept (R11). -/
theorem maskSetBit_getLsbD (m : KeyMask) (i k : Nat) (x : Bool) (hi : i < 24) (hk : k < 24) :
   (maskSetBit m i x).getLsbD k = if k = i then x else m.getLsbD k := by
  simp only [maskSetBit, BitVec.getLsbD_or, BitVec.getLsbD_and, BitVec.getLsbD_not, BitVec.getLsbD_shiftLeft,
   BitVec.getLsbD_setWidth, BitVec.getLsbD_ofBool, BitVec.getLsbD_one]
  by_cases h : k = i
  · subst h; simp [hk]
  · by_cases hlt : k < i
    · simp [h, hlt, hk]
    · have : k - i ≠ 0 := by omega
      simp [h, hlt, hk, this]

/-- The even mask bits one key line gives (R160). -/
theorem maskLine_even (reg : Vector Byte 4) (r : Fin 4) (m : KeyMask) (l : Fin 3) (r' : Fin 4) (l' : Fin 3) :
    (maskLine reg r m l).getLsbD (l'.val * 8 + 2 * r'.val) =
      if r' = r ∧ l' = l then (reg[r]).getLsbD l.val else m.getLsbD (l'.val * 8 + 2 * r'.val) := by
  unfold maskLine
  rw [maskSetBit_getLsbD _ _ _ _ (by omega) (by omega), maskSetBit_getLsbD _ _ _ _ (by omega) (by omega)]
  rw [if_neg (by omega)]
  by_cases h : r' = r ∧ l' = l
  · rw [if_pos h, if_pos (by obtain ⟨rfl, rfl⟩ := h; rfl)]
  · rw [if_neg h, if_neg (by simp only [Fin.ext_iff] at h; omega)]

/-- The odd mask bits one key line gives (R160). -/
theorem maskLine_odd (reg : Vector Byte 4) (r : Fin 4) (m : KeyMask) (l : Fin 3) (r' : Fin 4) (l' : Fin 3) :
    (maskLine reg r m l).getLsbD (l'.val * 8 + 2 * r'.val + 1) =
      if r' = r ∧ l' = l then (reg[r]).getLsbD (l.val + 4) else m.getLsbD (l'.val * 8 + 2 * r'.val + 1) := by
  unfold maskLine
  rw [maskSetBit_getLsbD _ _ _ _ (by omega) (by omega), maskSetBit_getLsbD _ _ _ _ (by omega) (by omega)]
  by_cases h : r' = r ∧ l' = l
  · rw [if_pos h, if_pos (by obtain ⟨rfl, rfl⟩ := h; omega)]
  · rw [if_neg h, if_neg (by simp only [Fin.ext_iff] at h; omega), if_neg (by omega)]

/-- Two masks with the same key bits are the same. -/
theorem mask_ext {a b : KeyMask} (h : ∀ (r : Fin 4) (l : Fin 3),
    a.getLsbD (l.val * 8 + 2 * r.val) = b.getLsbD (l.val * 8 + 2 * r.val) ∧
    a.getLsbD (l.val * 8 + 2 * r.val + 1) = b.getLsbD (l.val * 8 + 2 * r.val + 1)) : a = b := by
  apply BitVec.eq_of_getLsbD_eq
  intro k hk
  have h0 := h ⟨k % 8 / 2, by omega⟩ ⟨k / 8, by omega⟩
  rcases Nat.mod_two_eq_zero_or_one k with e | e
  · have := h0.1; simp only at this; rwa [show k / 8 * 8 + 2 * (k % 8 / 2) = k by omega] at this
  · have := h0.2; simp only at this; rwa [show k / 8 * 8 + 2 * (k % 8 / 2) + 1 = k by omega] at this

theorem zeroShadow_odd : ∀ k b : Fin 8, 2 ≤ b.val → (zeroShadow[registerIndex k 1]).getLsbD b.val = false := by decide

end Sys2Proof.Machine
end

