-- ==== Sys2Proof/Laws/Encoding.lean ====
section
/-! SUPPORT. The bits of the instruction bytes, and the operand readers and what they undo, said once. -/

namespace Sys2Proof.Machine

theorem bitField_getLsbD (i k : Nat) (x : Bool) (hi : i < 8) : (bitField i x).getLsbD k = (decide (k = i) && x) := by
  simp only [bitField, BitVec.getLsbD_shiftLeft, BitVec.getLsbD_setWidth, BitVec.getLsbD_ofBool]
  by_cases hk : k = i
  · subst hk; simp [hi]
  · by_cases hlt : k < i
    · simp [hlt, hk]
    · have : k - i ≠ 0 := by omega
      simp [this, hk]

/-- The bits of a class field (R70). -/
theorem classField_getLsbD (c : BitVec 2) (k : Nat) (hk : k < 8) :
    (classField c).getLsbD k = (decide (6 ≤ k) && c.getLsbD (k - 6)) := by
  have : k = 0 ∨ k = 1 ∨ k = 2 ∨ k = 3 ∨ k = 4 ∨ k = 5 ∨ k = 6 ∨ k = 7 := by omega
  rcases this with rfl | rfl | rfl | rfl | rfl | rfl | rfl | rfl <;> revert c <;> decide

/-- A class by its two bits. -/
theorem classOf_eq {b : Byte} {c : BitVec 2} (h6 : b.getLsbD 6 = c.getLsbD 0) (h7 : b.getLsbD 7 = c.getLsbD 1) :
    classOf b = c := by
  apply BitVec.eq_of_getLsbD_eq
  intro i hi
  have : i = 0 ∨ i = 1 := by omega
  rcases this with rfl | rfl <;> simp [classOf] <;> simpa

/-- The bits of a data instruction (R72). -/
theorem dataInstr_getLsbD (l : CmdLayout) (rw am tm : Bool) (k : Nat) (hk : k < 8) :
    (dataInstr l rw am tm).getLsbD k = ((decide (6 ≤ k) && l.clsData.getLsbD (k - 6)) ||
      (decide (k = l.rwBit.val) && rw) || (decide (k = l.amBit.val) && am) || (decide (k = l.tmBit.val) && tm)) := by
  have h1 := l.rwBit.isLt; have h2 := l.amBit.isLt; have h3 := l.tmBit.isLt
  unfold dataInstr
  simp only [BitVec.getLsbD_or]
  rw [classField_getLsbD _ _ hk, bitField_getLsbD _ _ _ (by omega), bitField_getLsbD _ _ _ (by omega),
      bitField_getLsbD _ _ _ (by omega)]

/-- The bits of a display-control instruction (R74). -/
theorem dispInstr_getLsbD (l : CmdLayout) (n : Nat) (en : Bool) (k : Nat) (hk : k < 8) :
    (dispInstr l n en).getLsbD k = ((decide (6 ≤ k) && l.clsDisp.getLsbD (k - 6)) ||
      (decide (k = l.dispOnBit.val) && en) || (decide (k < 3) && (brightnessField n).getLsbD k)) := by
  have h1 := l.dispOnBit.isLt
  unfold dispInstr
  simp only [BitVec.getLsbD_or, BitVec.getLsbD_setWidth]
  rw [classField_getLsbD _ _ hk, bitField_getLsbD _ _ _ (by omega)]
  by_cases h : k < 3
  · simp [hk, h]
  · have : (brightnessField n).getLsbD k = false := BitVec.getLsbD_of_ge _ _ (by omega)
    simp [this]

/-- The bits of an address instruction (R73). -/
theorem addrInstr_getLsbD (l : CmdLayout) (a : BitVec 4) (k : Nat) (hk : k < 8) :
    (addrInstr l a).getLsbD k = ((decide (6 ≤ k) && l.clsAddr.getLsbD (k - 6)) || a.getLsbD k) := by
  unfold addrInstr
  simp only [BitVec.getLsbD_or, BitVec.getLsbD_setWidth]
  rw [classField_getLsbD _ _ hk]
  simp [hk]

/-- The constraints of R71, apart. -/
theorem layout_ok {l : CmdLayout} (h : l.ok = true) : l.clsData ≠ l.clsDisp ∧ l.clsData ≠ l.clsAddr ∧
    l.clsDisp ≠ l.clsAddr ∧
   l.rwBit ≠ l.amBit ∧ l.rwBit ≠ l.tmBit ∧ l.amBit ≠ l.tmBit ∧ 3 ≤ l.dispOnBit.val := by
  simp only [CmdLayout.ok, Bool.and_eq_true, bne_iff_ne, ne_eq, decide_eq_true_eq] at h
  tauto

theorem classOf_dataInstr (l : CmdLayout) (rw am tm : Bool) : classOf (dataInstr l rw am tm) = l.clsData := by
  have h1 := l.rwBit.isLt; have h2 := l.amBit.isLt; have h3 := l.tmBit.isLt
  apply classOf_eq <;> rw [dataInstr_getLsbD _ _ _ _ _ (by omega)]
  · have e1 : 6 ≠ l.rwBit.val := by omega
    have e2 : 6 ≠ l.amBit.val := by omega
    have e3 : 6 ≠ l.tmBit.val := by omega
    simp [e1, e2, e3]
  · have e1 : 7 ≠ l.rwBit.val := by omega
    have e2 : 7 ≠ l.amBit.val := by omega
    have e3 : 7 ≠ l.tmBit.val := by omega
    simp [e1, e2, e3]

theorem classOf_addrInstr (l : CmdLayout) (a) : classOf (addrInstr l a) = l.clsAddr := by
  apply classOf_eq <;> rw [addrInstr_getLsbD _ _ _ (by omega)] <;> simp

theorem classOf_dispInstr (l : CmdLayout) (n en) : classOf (dispInstr l n en) = l.clsDisp := by
  have h1 := l.dispOnBit.isLt
  have e1 : 6 ≠ l.dispOnBit.val := by omega
  have e2 : 7 ≠ l.dispOnBit.val := by omega
  apply classOf_eq <;> rw [dispInstr_getLsbD _ _ _ _ (by omega)] <;> simp [e1, e2]

/-- The three fields of a data instruction read back. -/
theorem dataInstr_fields {l : CmdLayout} (h : l.ok = true) (rw am tm : Bool) :
    (dataInstr l rw am tm).getLsbD l.rwBit = rw ∧
    (dataInstr l rw am tm).getLsbD l.amBit = am ∧
    (dataInstr l rw am tm).getLsbD l.tmBit = tm := by
  obtain ⟨-, -, -, a1, a2, a3, -⟩ := layout_ok h
  have h1 := l.rwBit.isLt; have h2 := l.amBit.isLt; have h3 := l.tmBit.isLt
  simp only [ne_eq, Fin.ext_iff] at a1 a2 a3
  refine ⟨?_, ?_, ?_⟩ <;> rw [dataInstr_getLsbD _ _ _ _ _ (by omega)]
  · simp [a1, a2, show ¬ 6 ≤ l.rwBit.val by omega]
  · simp [Ne.symm a1, a3, show ¬ 6 ≤ l.amBit.val by omega]
  · simp [Ne.symm a2, Ne.symm a3, show ¬ 6 ≤ l.tmBit.val by omega]

theorem addrInstr_low (l : CmdLayout) (a : BitVec 4) : (addrInstr l a).extractLsb' 0 4 = a := by
  apply BitVec.eq_of_getLsbD_eq
  intro i hi
  rw [BitVec.getLsbD_extractLsb', Nat.zero_add, addrInstr_getLsbD _ _ _ (by omega)]
  simp [hi]
  omega

theorem dispInstr_low {l : CmdLayout} (h : l.ok = true) (n en) :
    (dispInstr l n en).extractLsb' 0 3 = brightnessField n := by
  obtain ⟨-, -, -, -, -, -, a3⟩ := layout_ok h
  apply BitVec.eq_of_getLsbD_eq
  intro i hi
  rw [BitVec.getLsbD_extractLsb', Nat.zero_add, dispInstr_getLsbD _ _ _ _ (by omega)]
  have : i ≠ l.dispOnBit.val := by omega
  simp [hi, this]
  omega

theorem dispInstr_on {l : CmdLayout} (h : l.ok = true) (n en) : (dispInstr l n en).getLsbD l.dispOnBit = en := by
  obtain ⟨-, -, -, -, -, -, a3⟩ := layout_ok h
  rw [dispInstr_getLsbD _ _ _ _ (by omega)]
  simp [show ¬ l.dispOnBit.val < 3 by omega, show ¬ 6 ≤ l.dispOnBit.val by omega]

theorem classOf_fourthInstr (l : CmdLayout) (low) : classOf (fourthInstr l low) = l.clsFourth := by
  unfold fourthInstr
  generalize l.clsFourth = c
  revert c low; decide

theorem fourthInstr_low (l : CmdLayout) (low) : (fourthInstr l low).extractLsb' 0 6 = low := by
  unfold fourthInstr
  generalize l.clsFourth = c
  revert c low; decide

/-- The fourth class is none of the three (R70, R75). -/
theorem clsFourth_ne {l : CmdLayout} (h : l.ok = true) : l.clsFourth ≠ l.clsData ∧ l.clsFourth ≠ l.clsAddr ∧
    l.clsFourth ≠ l.clsDisp := by
  obtain ⟨a, b, c, -⟩ := layout_ok h
  unfold CmdLayout.clsFourth
  generalize l.clsData = x at *
  generalize l.clsAddr = y at *
  generalize l.clsDisp = z at *
  revert x y z; decide

/-- A class that is none of the three is the fourth. -/
theorem eq_clsFourth {l : CmdLayout} (h : l.ok = true) {c : BitVec 2} (h1 : c ≠ l.clsData) (h2 : c ≠ l.clsAddr)
    (h3 : c ≠ l.clsDisp) : c = l.clsFourth := by
  obtain ⟨a, b, c', -⟩ := layout_ok h
  unfold CmdLayout.clsFourth
  generalize l.clsData = x at *
  generalize l.clsAddr = y at *
  generalize l.clsDisp = z at *
  revert c x y z; decide

theorem fourthInstr_of_class (b : Byte) (l : CmdLayout) (h : classOf b = l.clsFourth) :
    fourthInstr l (b.extractLsb' 0 6) = b := by
  unfold fourthInstr
  rw [← h]; clear h; revert b; decide

theorem readBit_toNat (b : Bool) : readBit b.toNat = .ok b := by cases b <;> rfl

theorem readByte_toNat (b : Byte) : readByte b.toNat = .ok b := by
  unfold readByte; rw [if_pos b.isLt]; simp

theorem readSeven_toNat (b : BitVec 7) : readSeven b.toNat = .ok b := by
  unfold readSeven; rw [if_pos b.isLt]; simp

theorem readPatterns_map (bs : List Byte) : readPatterns (bs.map BitVec.toNat) = .ok bs := by
  induction bs with
  | nil => rfl
  | cons b bs ih => simp [readPatterns, readByte_toNat, ih]

theorem readItems_items (is : List (BitVec 7 × Bool)) : readItems (itemOperands is) = .ok is := by
  induction is with
  | nil => rfl
  | cons it is ih => obtain ⟨v, d⟩ := it; simp [readItems, itemOperands, readSeven_toNat, readBit_toNat, ih]

theorem wiringOfBit_wiringBit (w : Wiring) : wiringOfBit (wiringBit w) = w := by cases w <;> rfl

theorem wiringBit_wiringOfBit (b : Bool) : wiringBit (wiringOfBit b) = b := by cases b <;> rfl

theorem readBit_ok {n b} (h : readBit n = .ok b) : b.toNat = n := by
  unfold readBit at h
  split at h
  · cases h; simp_all
  · split at h
    · cases h; simp_all
    · cases h

theorem readByte_ok {n b} (h : readByte n = .ok b) : b.toNat = n := by
  unfold readByte at h
  split at h
  · cases h; simp; omega
  · cases h

theorem readSeven_ok {n b} (h : readSeven n = .ok b) : b.toNat = n := by
  unfold readSeven at h
  split at h
  · cases h; simp; omega
  · cases h

theorem readPatterns_ok {ns bs} (h : readPatterns ns = .ok bs) : bs.map BitVec.toNat = ns := by
  induction ns generalizing bs with
  | nil => cases h; rfl
  | cons n ns ih =>
    simp only [readPatterns] at h
    split at h
    · cases h; simp [readByte_ok ‹_›, ih ‹_›]
    · cases h
    · cases h

theorem readItems_ok : ∀ {ns : List Nat} {is}, readItems ns = .ok is → itemOperands is = ns
  | [], is, h => by cases h; rfl
  | [_], is, h => by cases h
  | v :: d :: ns, is, h => by
    simp only [readItems] at h
    split at h
    · cases h; simp [itemOperands, readSeven_ok ‹_›, readBit_ok ‹_›, readItems_ok ‹_›]
    · cases h
    · cases h
    · cases h

end Sys2Proof.Machine
end

