-- ==== Sys2Proof/Laws/State.lean ====
section
/-! SUPPORT. One lemma per field for each update of the state that a meaning makes; each is true by unfolding. -/

namespace Sys2Proof.Machine

variable (s : State)

@[simp] theorem respond_cfg (st : Status) (m : Option KeyMask) : (s.respond st m).cfg = s.cfg := rfl
@[simp] theorem respond_life (st : Status) (m : Option KeyMask) : (s.respond st m).life = s.life := rfl
@[simp] theorem respond_wiring (st : Status) (m : Option KeyMask) : (s.respond st m).wiring = s.wiring := rfl
@[simp] theorem respond_sh (st : Status) (m : Option KeyMask) : (s.respond st m).sh = s.sh := rfl
@[simp] theorem respond_tp (st : Status) (m : Option KeyMask) : (s.respond st m).tp = s.tp := rfl
@[simp] theorem respond_bus (st : Status) (m : Option KeyMask) : (s.respond st m).bus = s.bus := rfl
@[simp] theorem respond_chip (st : Status) (m : Option KeyMask) : (s.respond st m).chip = s.chip := rfl
@[simp] theorem respond_draws (st : Status) (m : Option KeyMask) : (s.respond st m).draws = s.draws := rfl
@[simp] theorem respond_port (st : Status) (m : Option KeyMask) : (s.respond st m).port = s.port := rfl
@[simp] theorem respond_reply (st : Status) (m : Option KeyMask) :
    (s.respond st m).reply = some { status := st, mask := m } := rfl

@[simp] theorem blockReset_cfg : s.blockReset.cfg = s.cfg := rfl
@[simp] theorem blockReset_life : s.blockReset.life = .unbound := rfl
@[simp] theorem blockReset_wiring : s.blockReset.wiring = none := rfl
@[simp] theorem blockReset_sh : s.blockReset.sh = zeroShadow := rfl
@[simp] theorem blockReset_tp : s.blockReset.tp = .unbound := rfl
@[simp] theorem blockReset_bus : s.blockReset.bus = s.bus := rfl
@[simp] theorem blockReset_chip : s.blockReset.chip = s.chip := rfl
@[simp] theorem blockReset_draws : s.blockReset.draws = s.draws := rfl
@[simp] theorem blockReset_port : s.blockReset.port = s.port := rfl
@[simp] theorem blockReset_reply : s.blockReset.reply = none := rfl

@[simp] theorem powerOn_cfg : s.powerOn.cfg = s.cfg := rfl
@[simp] theorem powerOn_life : s.powerOn.life = .unbound := rfl
@[simp] theorem powerOn_wiring : s.powerOn.wiring = none := rfl
@[simp] theorem powerOn_sh : s.powerOn.sh = zeroShadow := rfl
@[simp] theorem powerOn_tp : s.powerOn.tp = .unbound := rfl
@[simp] theorem powerOn_bus : s.powerOn.bus = s.bus.powerOn := rfl
@[simp] theorem powerOn_chip : s.powerOn.chip = Chip.drawn s.draws := rfl
@[simp] theorem powerOn_draws : s.powerOn.draws = s.draws + drawStride := rfl
@[simp] theorem powerOn_port : s.powerOn.port = s.port := rfl
@[simp] theorem powerOn_reply : s.powerOn.reply = none := rfl

@[simp] theorem forgetChip_cfg : (forgetChip s).cfg = s.cfg := rfl
@[simp] theorem forgetChip_life : (forgetChip s).life = s.life := rfl
@[simp] theorem forgetChip_wiring : (forgetChip s).wiring = s.wiring := rfl
@[simp] theorem forgetChip_sh : (forgetChip s).sh = s.sh := rfl
@[simp] theorem forgetChip_tp : (forgetChip s).tp = s.tp := rfl
@[simp] theorem forgetChip_bus : (forgetChip s).bus = s.bus := rfl
@[simp] theorem forgetChip_chip : (forgetChip s).chip = Chip.drawn s.draws := rfl
@[simp] theorem forgetChip_draws : (forgetChip s).draws = s.draws + drawStride := rfl
@[simp] theorem forgetChip_port : (forgetChip s).port = s.port := rfl
@[simp] theorem forgetChip_reply : (forgetChip s).reply = s.reply := rfl

@[simp] theorem cutFrame_cfg (f : Frame) : (cutFrame f s).cfg = s.cfg := rfl
@[simp] theorem cutFrame_life (f : Frame) : (cutFrame f s).life = s.life := rfl
@[simp] theorem cutFrame_wiring (f : Frame) : (cutFrame f s).wiring = s.wiring := rfl
@[simp] theorem cutFrame_sh (f : Frame) : (cutFrame f s).sh = s.sh := rfl
@[simp] theorem cutFrame_tp (f : Frame) : (cutFrame f s).tp = s.tp := rfl
@[simp] theorem cutFrame_bus (f : Frame) : (cutFrame f s).bus = s.bus := rfl
@[simp] theorem cutFrame_chip (f : Frame) : (cutFrame f s).chip = s.chip.cut f s.draws := rfl
@[simp] theorem cutFrame_draws (f : Frame) : (cutFrame f s).draws = s.draws + drawStride := rfl
@[simp] theorem cutFrame_port (f : Frame) : (cutFrame f s).port = s.port := rfl
@[simp] theorem cutFrame_reply (f : Frame) : (cutFrame f s).reply = s.reply := rfl
@[simp] theorem Chip.cut_amode (c : Chip) (f : Frame) (n : Nat) : (c.cut f n).amode = .unknown := rfl
@[simp] theorem Chip.cut_bright (c : Chip) (f : Frame) (n : Nat) : (c.cut f n).bright = Config.drawLevel n := rfl
@[simp] theorem Chip.cut_dispOn (c : Chip) (f : Frame) (n : Nat) : (c.cut f n).dispOn = Config.drawBit n := rfl
@[simp] theorem Chip.cut_dr (c : Chip) (f : Frame) (n r : Nat) (h : r < 16) :
    (c.cut f n).dr[r] = if f.addresses r then Config.drawByte (n + r) else c.dr[r] := by
  simp [Chip.cut]
/-- A cut frame that addresses no register leaves every register. -/
theorem Chip.cut_unaddressed {f : Frame} (h : ∀ i, f.addresses i = false) (c : Chip) (n : Nat) :
    c.cut f n = { c with amode := .unknown, dispOn := Config.drawBit n, bright := Config.drawLevel n } := by
  simp [Chip.cut, h]

@[simp] theorem exchanged_cfg (es : List Event) : (s.exchanged es).cfg = s.cfg := rfl
@[simp] theorem exchanged_life (es : List Event) : (s.exchanged es).life = s.life := rfl
@[simp] theorem exchanged_wiring (es : List Event) : (s.exchanged es).wiring = s.wiring := rfl
@[simp] theorem exchanged_sh (es : List Event) : (s.exchanged es).sh = s.sh := rfl
@[simp] theorem exchanged_tp (es : List Event) : (s.exchanged es).tp = s.tp := rfl
@[simp] theorem exchanged_chip (es : List Event) : (s.exchanged es).chip = s.chip := rfl
@[simp] theorem exchanged_draws (es : List Event) : (s.exchanged es).draws = s.draws := rfl
@[simp] theorem exchanged_port (es : List Event) : (s.exchanged es).port = s.port := rfl
@[simp] theorem exchanged_reply (es : List Event) : (s.exchanged es).reply = s.reply := rfl
@[simp] theorem exchanged_log (es : List Event) : (s.exchanged es).bus.log = s.bus.log ++ es := rfl
@[simp] theorem exchanged_bracket (es : List Event) : (s.exchanged es).bus.bracket = false := rfl

@[simp] theorem record_kind (t : Transport) (e : Event) : (t.record e).kind = t.kind := rfl
@[simp] theorem record_keepsBracket (t : Transport) (e : Event) : (t.record e).keepsBracket = t.keepsBracket := rfl
@[simp] theorem record_script (t : Transport) (e : Event) : (t.record e).script = t.script := rfl
@[simp] theorem record_drawn (t : Transport) (e : Event) : (t.record e).drawn = t.drawn := rfl
@[simp] theorem record_log (t : Transport) (e : Event) : (t.record e).log = t.log ++ [e] := rfl
@[simp] theorem record_bracket (t : Transport) (e : Event) :
    (t.record e).bracket = bracketAfter t.bracket e := rfl

@[simp] theorem presentPacket_port (p : Packet) : (presentPacket p s).port = .present p :: s.port := rfl

end Sys2Proof.Machine
end

