-- ==== Sys2Proof/Laws/Transport.lean ====
section
/-! SUPPORT. What the transport calls can do, said once: a list of calls answered in full, or up to the first failure;
writeBytes, readBytes and the calls of a frame are such lists. -/

namespace Sys2Proof.Machine

/-! ### The transport's answers -/

@[simp] theorem answer_kind (t : Transport) : t.answer.2.kind = t.kind := by
  unfold Transport.answer; split <;> rfl
@[simp] theorem answer_keepsBracket (t : Transport) : t.answer.2.keepsBracket = t.keepsBracket := by
  unfold Transport.answer; split <;> rfl
@[simp] theorem answer_log (t : Transport) : t.answer.2.log = t.log := by
  unfold Transport.answer; split <;> rfl
@[simp] theorem answer_bracket (t : Transport) : t.answer.2.bracket = t.bracket := by
  unfold Transport.answer; split <;> rfl

/-- The answer does not depend on the trace, the bracket or the realisation. -/
theorem answer_congr {t u : Transport} (hs : t.script = u.script) (hd : t.drawn = u.drawn) :
    t.answer.1 = u.answer.1 ∧ t.answer.2.script = u.answer.2.script ∧ t.answer.2.drawn = u.answer.2.drawn := by
  unfold Transport.answer
  rw [hs, hd]
  split <;> simp_all

@[simp] theorem answer_record (t : Transport) (e : Event) :
    (t.record e).answer = (t.answer.1, t.answer.2.record e) := by
  unfold Transport.answer Transport.record
  cases t.script <;> rfl

theorem advance_record (n : Nat) (t : Transport) (e : Event) :
    Transport.advance n (t.record e) = (Transport.advance n t).record e := by
  induction n generalizing t with
  | zero => rfl
  | succ n ih => simp [Transport.advance, ih]

theorem advance_add (m n : Nat) (t : Transport) :
    Transport.advance (m + n) t = Transport.advance n (Transport.advance m t) := by
  induction m generalizing t with
  | zero => simp [Transport.advance]
  | succ m ih => rw [Nat.succ_add]; simp [Transport.advance, ih]

@[simp] theorem advance_kind (n : Nat) (t : Transport) : (t.advance n).kind = t.kind := by
  induction n generalizing t with
  | zero => rfl
  | succ n ih => simp [Transport.advance, ih]
@[simp] theorem advance_keepsBracket (n : Nat) (t : Transport) :
    (t.advance n).keepsBracket = t.keepsBracket := by
  induction n generalizing t with
  | zero => rfl
  | succ n ih => simp [Transport.advance, ih]
@[simp] theorem advance_log (n : Nat) (t : Transport) : (t.advance n).log = t.log := by
  induction n generalizing t with
  | zero => rfl
  | succ n ih => simp [Transport.advance, ih]
@[simp] theorem advance_bracket (n : Nat) (t : Transport) : (t.advance n).bracket = t.bracket := by
  induction n generalizing t with
  | zero => rfl
  | succ n ih => simp [Transport.advance, ih]

theorem serves_succ (n : Nat) (t : Transport) :
    t.serves (n + 1) = (t.answer.1 != .fail && t.answer.2.serves n) := by
  rcases h : t.answer with ⟨r, t'⟩
  cases r <;> simp [Transport.serves, h]

theorem answers_succ {n : Nat} {t : Transport} {b : Byte} (h : t.answer.1 = .ok b) :
    t.answers (n + 1) = b :: t.answer.2.answers n := by
  rcases ht : t.answer with ⟨r, t'⟩
  rw [ht] at h
  cases h
  simp [Transport.answers, ht]

@[simp] theorem serves_record (n : Nat) (t : Transport) (e : Event) : (t.record e).serves n = t.serves n := by
  induction n generalizing t with
  | zero => rfl
  | succ n ih => simp [serves_succ, ih]

@[simp] theorem answers_record (n : Nat) (t : Transport) (e : Event) : (t.record e).answers n = t.answers n := by
  induction n generalizing t with
  | zero => rfl
  | succ n ih =>
    rcases ht : t.answer with ⟨r, t'⟩
    cases r <;> simp [Transport.answers, ht, ih]

theorem serves_add (m n : Nat) (t : Transport) :
    t.serves (m + n) = (t.serves m && (t.advance m).serves n) := by
  induction m generalizing t with
  | zero => simp [Transport.serves, Transport.advance]
  | succ m ih => rw [Nat.succ_add]; simp [serves_succ, Transport.advance, ih, Bool.and_assoc]

theorem answers_length {n : Nat} {t : Transport} (h : t.serves n = true) : (t.answers n).length = n := by
  induction n generalizing t with
  | zero => rfl
  | succ n ih =>
    rcases ht : t.answer with ⟨r, t'⟩
    cases r <;> simp_all [Transport.answers, Transport.serves]

/-- Either the next `n` calls succeed, or one of them is the first to fail. -/
theorem serves_or_failsAt (n : Nat) (t : Transport) :
    t.serves n = true ∨ ∃ k, k < n ∧ t.failsAt k = true := by
  induction n generalizing t with
  | zero => exact .inl rfl
  | succ n ih =>
    rcases ht : t.answer with ⟨r, t'⟩
    cases r with
    | fail => exact .inr ⟨0, by omega, by simp [Transport.failsAt, Transport.serves, Transport.advance, ht]⟩
    | ok b =>
      rcases ih t' with h | ⟨k, hk, hf⟩
      · exact .inl (by simp [serves_succ, ht, h])
      · refine .inr ⟨k + 1, by omega, ?_⟩
        simp only [Transport.failsAt, Bool.and_eq_true] at hf ⊢
        simp [serves_succ, Transport.advance, ht, hf.1, hf.2]

theorem bind_assoc {α β γ : Type} (r : Run α) (f : α → State → Run β) (g : β → State → Run γ) :
    (r.bind f).bind g = r.bind fun a s => (f a s).bind g := by
  cases r <;> rfl

@[simp] theorem bind_done {α β : Type} (a : α) (s : State) (k : α → State → Run β) :
    (Run.done a s).bind k = k a s := rfl
@[simp] theorem bind_failed {α β : Type} (s : State) (k : α → State → Run β) :
    (Run.failed s).bind k = .failed s := rfl
@[simp] theorem bind_faulted {α β : Type} (f : Fault) (k : α → State → Run β) :
    (Run.faulted f).bind k = .faulted f := rfl
@[simp] theorem bind_refused {α β : Type} (e : Refusal) (k : α → State → Run β) :
    (Run.refused e).bind k = .refused e := rfl

/-! ### A list of calls -/

/-- Calls made one after another, each giving its event from the byte it delivers. -/
def runCalls : List (Byte → Event) → State → Run (List Byte)
  | [], s => .done [] s
  | mk :: mks, s => (txCall mk s).bind fun b s => (runCalls mks s).bind fun bs s => .done (b :: bs) s

/-- The events of calls answered by these bytes. -/
def callEvents (mks : List (Byte → Event)) (bs : List Byte) : List Event := List.zipWith (fun mk b => mk b) mks bs

/-- The state after the transport has answered `n` calls and recorded the events `es`. -/
def State.afterCalls (s : State) (n : Nat) (es : List Event) : State :=
  { s with bus := { s.bus.advance n with log := s.bus.log ++ es, bracket := es.foldl bracketAfter s.bus.bracket } }

theorem txCall_ok {mk : Byte → Event} {s : State} {b : Byte} (h : s.tp = .bound) (ha : s.bus.answer.1 = .ok b) :
    txCall mk s = .done b { s with bus := s.bus.answer.2.record (mk b) } := by
  rcases ht : s.bus.answer with ⟨r, t'⟩
  rw [ht] at ha
  cases ha
  simp [txCall, h, ht]

theorem txCall_fail {mk : Byte → Event} {s : State} (h : s.tp = .bound) (ha : s.bus.answer.1 = .fail) :
    txCall mk s = .failed { s with bus := s.bus.answer.2 } := by
  rcases ht : s.bus.answer with ⟨r, t'⟩
  rw [ht] at ha
  cases ha
  simp [txCall, h, ht]

/-- Every call answered: the bytes are the answers, the trace grows by one event per call. -/
theorem runCalls_serves (mks : List (Byte → Event)) (s : State) (h : s.tp = .bound)
    (hs : s.bus.serves mks.length = true) :
    runCalls mks s = .done (s.bus.answers mks.length)
      (s.afterCalls mks.length (callEvents mks (s.bus.answers mks.length))) := by
  induction mks generalizing s with
  | nil => simp [runCalls, Transport.answers, callEvents, State.afterCalls, Transport.advance]
  | cons mk mks ih =>
    rcases ht : s.bus.answer with ⟨r, t'⟩
    cases r with
    | fail => simp [Transport.serves, ht] at hs
    | ok b =>
      have hs' : t'.serves mks.length = true := by simpa [serves_succ, ht] using hs
      have hb : s.bus.answer.1 = .ok b := by rw [ht]
      have h2 : s.bus.answer.2 = t' := by rw [ht]
      rw [runCalls, txCall_ok h hb, bind_done,
        ih { s with bus := s.bus.answer.2.record (mk b) } h (by simpa [h2] using hs'), bind_done]
      have hl : t'.log = s.bus.log := by rw [← h2]; simp
      have hbr : t'.bracket = s.bus.bracket := by rw [← h2]; simp
      simp [List.length_cons, answers_succ hb, callEvents, State.afterCalls, Transport.advance, h2, advance_record, hl, hbr]

/-- The first `k` calls answered and the next one failed: the sequence stops there, with `k` events recorded. -/
theorem runCalls_failsAt (mks : List (Byte → Event)) (s : State) (k : Nat) (h : s.tp = .bound)
    (hk : k < mks.length) (hf : s.bus.failsAt k = true) :
    runCalls mks s = .failed (s.afterCalls (k + 1) (callEvents (mks.take k) (s.bus.answers k))) := by
  induction mks generalizing s k with
  | nil => simp at hk
  | cons mk mks ih =>
    cases k with
    | zero =>
      have ha : s.bus.answer.1 = .fail := by simpa [Transport.failsAt, Transport.serves, Transport.advance] using hf
      rw [runCalls, txCall_fail h ha]
      have hl := answer_log s.bus
      have hbr := answer_bracket s.bus
      simp only [bind_failed, State.afterCalls, callEvents, Transport.advance, Transport.answers, List.take_zero,
        List.zipWith_nil_left, List.append_nil, List.foldl_nil, ← hl, ← hbr]
    | succ k =>
      rcases ht : s.bus.answer with ⟨r, t'⟩
      cases r with
      | fail => simp [Transport.failsAt, Transport.serves, ht] at hf
      | ok b =>
        have hb : s.bus.answer.1 = .ok b := by rw [ht]
        have h2 : s.bus.answer.2 = t' := by rw [ht]
        have hf' : t'.failsAt k = true := by
          simpa [Transport.failsAt, serves_succ, Transport.advance, ht] using hf
        rw [runCalls, txCall_ok h hb, bind_done,
          ih { s with bus := s.bus.answer.2.record (mk b) } k h (by simpa using hk)
            (by simpa [Transport.failsAt, h2, advance_record] using hf'), bind_failed]
        have hl : t'.log = s.bus.log := by rw [← h2]; simp
        have hbr : t'.bracket = s.bus.bracket := by rw [← h2]; simp
        simp [answers_succ hb, callEvents, State.afterCalls, Transport.advance, h2, advance_record, hl, hbr]

theorem runCalls_append (xs ys : List (Byte → Event)) (s : State) :
    runCalls (xs ++ ys) s =
      (runCalls xs s).bind fun as s => (runCalls ys s).bind fun bs s => .done (as ++ bs) s := by
  induction xs generalizing s with
  | nil =>
    simp only [List.nil_append, runCalls, bind_done]
    cases runCalls ys s <;> rfl
  | cons x xs ih =>
    simp only [List.cons_append, runCalls, ih]
    cases h : txCall x s with
    | done b s' =>
      simp only [bind_done]
      cases h' : runCalls xs s' with
      | done as s'' => simp only [bind_done]; cases runCalls ys s'' <;> simp
      | failed => rfl
      | faulted => rfl
      | refused => rfl
    | failed => rfl
    | faulted => rfl
    | refused => rfl

theorem writeBytes_runCalls (bs : List Byte) (s : State) :
    writeBytes bs s = (runCalls (bs.map fun b _ => Event.wr b) s).bind fun _ s => .done () s := by
  induction bs generalizing s with
  | nil => rfl
  | cons b bs ih =>
    simp only [writeBytes, txWrite, List.map_cons, runCalls, ih, bind_assoc, bind_done]

theorem readBytes_runCalls (n : Nat) (s : State) : readBytes n s = runCalls (List.replicate n .rd) s := by
  induction n generalizing s with
  | zero => rfl
  | succ n ih => simp only [readBytes, txRead, List.replicate_succ, runCalls, ih]

/-- What a list of calls leaves of the state: everything but the transport. -/
theorem runCalls_frame (mks : List (Byte → Event)) (s : State) :
    (∀ bs t, runCalls mks s = .done bs t → ∃ bus, t = { s with bus := bus } ∧ bus.keepsBracket = s.bus.keepsBracket)
    ∧ (∀ t, runCalls mks s = .failed t → ∃ bus, t = { s with bus := bus } ∧ bus.keepsBracket = s.bus.keepsBracket) := by
  induction mks generalizing s with
  | nil =>
    constructor
    · intro bs t h; cases h; exact ⟨s.bus, rfl, rfl⟩
    · intro t h; cases h
  | cons mk mks ih =>
    rcases (show s.tp = .unbound ∨ s.tp = .bound by cases s.tp <;> simp) with htp | htp
    · simp [runCalls, txCall, htp]
    · have hk := answer_keepsBracket s.bus
      cases ha : s.bus.answer.1 with
      | fail =>
        simp only [runCalls, txCall_fail htp ha, bind_failed, reduceCtorEq, false_implies, implies_true, true_and,
          Run.failed.injEq]
        rintro t rfl
        exact ⟨_, rfl, hk⟩
      | ok b =>
        simp only [runCalls, txCall_ok htp ha, bind_done]
        obtain ⟨hd, hf⟩ := ih { s with bus := s.bus.answer.2.record (mk b) }
        cases hr : runCalls mks { s with bus := s.bus.answer.2.record (mk b) } with
        | done bs u =>
          obtain ⟨bus, rfl, hb⟩ := hd bs u hr
          simp only [bind_done, Run.done.injEq, reduceCtorEq, false_implies, implies_true, and_true]
          rintro _ t ⟨-, rfl⟩
          exact ⟨bus, rfl, by simpa [hk] using hb⟩
        | failed u =>
          obtain ⟨bus, rfl, hb⟩ := hf u hr
          simp only [bind_failed, Run.failed.injEq, reduceCtorEq, false_implies, implies_true, true_and]
          rintro t rfl
          exact ⟨bus, rfl, by simpa [hk] using hb⟩
        | faulted => simp
        | refused => simp

/-! ### The calls of a frame -/

/-- The calls of a frame, in order (R104-R106). -/
def frameMakers (l : CmdLayout) (f : Frame) : List (Byte → Event) :=
  [fun _ => Event.bracketBegin] ++ (f.bytes l).map (fun b _ => Event.wr b) ++ List.replicate f.reads .rd
    ++ [fun _ => Event.bracketEnd]

/-- The bytes a frame's reads deliver, among the answers to all its calls. -/
def frameAnswers (l : CmdLayout) (f : Frame) (bs : List Byte) : List Byte :=
  (bs.drop (1 + (f.bytes l).length)).take f.reads

theorem frameMakers_length (l : CmdLayout) (f : Frame) :
    (frameMakers l f).length = 1 + (f.bytes l).length + f.reads + 1 := by
  simp [frameMakers]; omega

theorem runCalls_done_length {mks : List (Byte → Event)} {s t : State} {bs : List Byte}
    (h : runCalls mks s = .done bs t) : bs.length = mks.length := by
  induction mks generalizing s t bs with
  | nil => cases h; rfl
  | cons mk mks ih =>
    simp only [runCalls] at h
    cases h1 : txCall mk s with
    | done b u =>
      rw [h1, bind_done] at h
      cases h2 : runCalls mks u with
      | done bs' v => rw [h2] at h; cases h; simp [ih h2]
      | failed => rw [h2] at h; cases h
      | faulted => rw [h2] at h; cases h
      | refused => rw [h2] at h; cases h
    | failed => rw [h1] at h; cases h
    | faulted => rw [h1] at h; cases h
    | refused => rw [h1] at h; cases h

/-- A frame's calls are a list of calls, unless the transport drops the bracket before the reads. -/
theorem frameCalls_runCalls (f : Frame) (s : State) (h : f.reads = 0 ∨ s.bus.keepsBracket = true) :
    frameCalls f s = (runCalls (frameMakers s.cfg.layout f) s).bind fun bs s =>
      .done (frameAnswers s.cfg.layout f bs) s := by
  unfold frameMakers frameCalls txBegin txEnd
  simp only [runCalls_append, bind_assoc, bind_done, writeBytes_runCalls, readBytes_runCalls, List.append_assoc,
    runCalls]
  cases h1 : txCall (fun _ => Event.bracketBegin) s with
  | failed => rfl
  | faulted => rfl
  | refused => rfl
  | done b1 s1 =>
    simp only [bind_done]
    obtain ⟨bus1, hs1, hk1⟩ := (runCalls_frame [fun _ => Event.bracketBegin] s).1 [b1] s1 (by simp [runCalls, h1])
    have hc1 : s1.cfg = s.cfg := by rw [hs1]
    rw [hc1]
    cases h2 : runCalls ((f.bytes s.cfg.layout).map fun b _ => Event.wr b) s1 with
    | failed => rfl
    | faulted => rfl
    | refused => rfl
    | done bs s2 =>
      simp only [bind_done]
      obtain ⟨bus2, hs2, hk2⟩ := (runCalls_frame _ s1).1 bs s2 h2
      have hlen : bs.length = (f.bytes s.cfg.layout).length := by simpa using runCalls_done_length h2
      have hkb : f.reads = 0 ∨ s2.bus.keepsBracket = true := by
        rcases h with h | h
        · exact .inl h
        · refine .inr ?_
          have hb2 : s2.bus = bus2 := by rw [hs2]
          have hb1 : s1.bus = bus1 := by rw [hs1]
          rw [hb2, hk2, hb1, hk1, h]
      rw [turnAround, if_pos hkb]
      simp only [bind_done]
      cases h3 : runCalls (List.replicate f.reads Event.rd) s2 with
      | failed => rfl
      | faulted => rfl
      | refused => rfl
      | done rs s3 =>
        have hr : rs.length = f.reads := by simpa using runCalls_done_length h3
        have hc3 : s3.cfg = s.cfg := by
          obtain ⟨bus3, hs3, -⟩ := (runCalls_frame _ s2).1 rs s3 h3
          rw [hs3, hs2, hs1]
        simp only [bind_done]
        cases h4 : txCall (fun _ => Event.bracketEnd) s3 with
        | failed => rfl
        | faulted => rfl
        | refused => rfl
        | done b4 s4 =>
          obtain ⟨bus4, hs4, -⟩ := (runCalls_frame [fun _ => Event.bracketEnd] s3).1 [b4] s4 (by simp [runCalls, h4])
          have hc4 : s4.cfg = s.cfg := by rw [hs4]; exact hc3
          simp only [bind_done, frameAnswers, hc4, ← hlen, ← hr]
          congr 1
          have : 1 + bs.length = ([b1] ++ bs).length := by simp [Nat.add_comm]
          rw [this]
          simp

theorem frameEvents_eq (l : CmdLayout) (f : Frame) (bs : List Byte)
    (hl : bs.length = (frameMakers l f).length) :
    callEvents (frameMakers l f) bs = f.events l (frameAnswers l f bs) := by
  rw [frameMakers_length] at hl
  obtain ⟨b1, r1, rfl⟩ : ∃ b1 r1, bs = b1 :: r1 := by
    cases bs with
    | nil => simp at hl
    | cons b r => exact ⟨b, r, rfl⟩
  have hr1 : r1 = r1.take (f.bytes l).length ++ ((r1.drop (f.bytes l).length).take f.reads
      ++ (r1.drop (f.bytes l).length).drop f.reads) := by simp
  have hl3 : ((r1.drop (f.bytes l).length).drop f.reads).length = 1 := by simp at hl ⊢; omega
  obtain ⟨b4, h4⟩ := List.length_eq_one_iff.mp hl3
  have hwr : ∀ (ws as : List Byte), as.length = ws.length →
      List.zipWith (fun (mk : Byte → Event) b => mk b) (ws.map fun b _ => Event.wr b) as = ws.map .wr := by
    intro ws
    induction ws with
    | nil => intro as _; rfl
    | cons w ws ih =>
      intro as ha
      cases as with
      | nil => simp at ha
      | cons a as => simp [ih as (by simpa using ha)]
  have hrd : ∀ (as : List Byte),
      List.zipWith (fun (mk : Byte → Event) b => mk b) (List.replicate as.length Event.rd) as = as.map .rd := by
    intro as
    induction as with
    | nil => rfl
    | cons a as ih => simp [List.replicate_succ, ih]
  have hA : frameAnswers l f (b1 :: r1) = (r1.drop (f.bytes l).length).take f.reads := by
    simp [frameAnswers, Nat.add_comm 1]
  rw [hA]
  conv_lhs => rw [hr1, h4]
  have htake : (r1.take (f.bytes l).length).length = (f.bytes l).length := by simp at hl ⊢; omega
  have hread : ((r1.drop (f.bytes l).length).take f.reads).length = f.reads := by simp at hl ⊢; omega
  unfold callEvents frameMakers Frame.events
  simp only [List.append_assoc, List.cons_append, List.nil_append, List.zipWith_cons_cons]
  congr 1
  rw [List.zipWith_append (by simpa using htake.symm)]
  rw [hwr _ _ htake]
  congr 1
  rw [List.zipWith_append (by simpa using hread.symm)]
  have := hrd ((r1.drop (f.bytes l).length).take f.reads)
  rw [hread] at this
  rw [this]
  rfl

end Sys2Proof.Machine
end

