-- ==== Sys2Proof/Laws/Frames.lean ====
section
/-! SUPPORT. What one frame on the bus can do, said once: it goes through whole, or it is cut at its first failing
call; and what the observer makes of it. -/

namespace Sys2Proof.Machine

theorem answers_add {m : Nat} {t : Transport} (n : Nat) (h : t.serves m = true) :
    t.answers (m + n) = t.answers m ++ (t.advance m).answers n := by
  induction m generalizing t with
  | zero => simp [Transport.answers, Transport.advance]
  | succ m ih =>
    rcases ht : t.answer with ⟨r, t'⟩
    cases r with
    | fail => simp [Transport.serves, ht] at h
    | ok b =>
      rw [Nat.succ_add]
      have h' : t'.serves m = true := by simpa [serves_succ, ht] using h
      simp [Transport.answers, Transport.advance, ht, ih h']

/-- `serves` on a prefix. -/
theorem serves_mono {m n : Nat} {t : Transport} (hmn : m ≤ n) (h : t.serves n = true) : t.serves m = true := by
  obtain ⟨d, rfl⟩ := Nat.exists_eq_add_of_le hmn
  rw [serves_add] at h
  exact (Bool.and_eq_true _ _ ▸ h).1

/-- The bytes the transport will deliver to a frame's reads. -/
def readsOf (l : CmdLayout) (f : Frame) (t : Transport) : List Byte :=
  (t.advance (1 + (f.bytes l).length)).answers f.reads

theorem frameAnswers_readsOf (l : CmdLayout) (f : Frame) (t : Transport)
    (h : t.serves (frameMakers l f).length = true) :
    frameAnswers l f (t.answers (frameMakers l f).length) = readsOf l f t := by
  rw [frameMakers_length] at h ⊢
  have h1 : t.serves (1 + (f.bytes l).length) = true := serves_mono (by omega) h
  have h2 : (t.advance (1 + (f.bytes l).length)).serves f.reads = true := by
    have := serves_mono (m := 1 + (f.bytes l).length + f.reads) (by omega) h
    rw [serves_add, Bool.and_eq_true] at this
    exact this.2
  rw [show 1 + (f.bytes l).length + f.reads + 1 = 1 + (f.bytes l).length + (f.reads + 1) by omega,
    answers_add _ h1, answers_add _ h2]
  simp [frameAnswers, readsOf, answers_length h1, answers_length h2]

theorem readsOf_length (l : CmdLayout) (f : Frame) (t : Transport)
    (h : t.serves (frameMakers l f).length = true) : (readsOf l f t).length = f.reads := by
  rw [frameMakers_length, show 1 + (f.bytes l).length + f.reads + 1 = 1 + (f.bytes l).length + (f.reads + 1) by omega,
    serves_add, Bool.and_eq_true] at h
  exact answers_length (serves_mono (by omega) h.2)

theorem events_length (l : CmdLayout) (f : Frame) (as : List Byte) :
    (f.events l as).length = 1 + (f.bytes l).length + as.length + 1 := by
  simp [Frame.events]; omega

theorem foldl_bracketAfter_wr (b : Bool) (ws : List Byte) :
    (ws.map Event.wr).foldl bracketAfter b = b := by
  induction ws with
  | nil => rfl
  | cons w ws ih => simpa [bracketAfter] using ih

theorem foldl_bracketAfter_rd (b : Bool) (ws : List Byte) :
    (ws.map Event.rd).foldl bracketAfter b = b := by
  induction ws with
  | nil => rfl
  | cons w ws ih => simpa [bracketAfter] using ih

@[simp] theorem bracketAfter_events (l : CmdLayout) (f : Frame) (as : List Byte) (b : Bool) :
    (f.events l as).foldl bracketAfter b = false := by
  simp [Frame.events, bracketAfter]

/-- A frame all of whose calls are answered. -/
theorem frameCalls_serves (f : Frame) (s : State) (htp : s.tp = .bound)
    (hk : f.reads = 0 ∨ s.bus.keepsBracket = true)
    (hs : s.bus.serves (frameMakers s.cfg.layout f).length = true) :
    frameCalls f s = .done (readsOf s.cfg.layout f s.bus)
      (s.exchanged (f.events s.cfg.layout (readsOf s.cfg.layout f s.bus))) := by
  rw [frameCalls_runCalls f s hk, runCalls_serves _ s htp hs, bind_done]
  have hA := frameAnswers_readsOf _ f _ hs
  have hE := frameEvents_eq s.cfg.layout f _ (answers_length hs)
  rw [hA] at hE
  have hlen : (f.events s.cfg.layout (readsOf s.cfg.layout f s.bus)).length
      = (frameMakers s.cfg.layout f).length := by
    rw [events_length, readsOf_length _ _ _ hs, frameMakers_length]
  rw [hE]
  simp only [State.afterCalls, State.exchanged, bracketAfter_events, hlen, hA]

/-- The events that `k` answered calls of a frame record. -/
def cutEvents (l : CmdLayout) (f : Frame) (k : Nat) (t : Transport) : List Event :=
  callEvents ((frameMakers l f).take k) (t.answers k)

/-- A frame cut at its call `k`. -/
theorem frameCalls_failsAt (f : Frame) (s : State) (k : Nat) (htp : s.tp = .bound)
    (hk : f.reads = 0 ∨ s.bus.keepsBracket = true) (hlt : k < (frameMakers s.cfg.layout f).length)
    (hf : s.bus.failsAt k = true) :
    frameCalls f s = .failed (s.afterCalls (k + 1) (cutEvents s.cfg.layout f k s.bus)) := by
  rw [frameCalls_runCalls f s hk, runCalls_failsAt _ s k htp hlt hf, bind_failed]
  rfl

/-- A cut frame has recorded a prefix of the whole frame's events. -/
theorem cutEvents_eq (l : CmdLayout) (f : Frame) (k : Nat) (t : Transport)
    (hlt : k < (frameMakers l f).length) (hf : t.failsAt k = true) :
    cutEvents l f k t = (f.events l (readsOf l f t)).take k := by
  have hs : t.serves k = true := by
    simp only [Transport.failsAt, Bool.and_eq_true] at hf; exact hf.1
  have hfail : (t.advance k).answer.1 = .fail := by
    simp only [Transport.failsAt, Bool.and_eq_true, beq_iff_eq] at hf; exact hf.2
  rw [frameMakers_length] at hlt
  have hfailn : ∀ n u, u.answer.1 = Reply.fail → Transport.answers n u = [] := by
    intro n u hu
    cases n with
    | zero => rfl
    | succ n =>
      rcases hh : u.answer with ⟨r, u'⟩
      rw [hh] at hu; cases hu
      simp [Transport.answers, hh]
  have hwr : ∀ (ws : List Byte) (as : List Byte) (k : Nat), as.length = k → k ≤ ws.length →
      List.zipWith (fun (mk : Byte → Event) b => mk b) ((ws.map fun b _ => Event.wr b).take k) as
        = (ws.map Event.wr).take k := by
    intro ws
    induction ws with
    | nil => intro as k h1 h2; simp at h2; subst h2; simp
    | cons w ws ih =>
      intro as k h1 h2
      cases k with
      | zero => simp
      | succ k =>
        cases as with
        | nil => simp at h1
        | cons a as => simp [ih as k (by simpa using h1) (by simpa using h2)]
  have hrd : ∀ (as : List Byte) (n : Nat), as.length ≤ n →
      List.zipWith (fun (mk : Byte → Event) b => mk b) ((List.replicate n Event.rd).take as.length) as
        = as.map .rd := by
    intro as
    induction as with
    | nil => intro n _; simp
    | cons a as ih =>
      intro n hn
      cases n with
      | zero => simp at hn
      | succ n =>
        simp only [List.replicate_succ, List.length_cons, List.take_succ_cons, List.zipWith_cons_cons, List.map_cons]
        rw [ih n (by simpa using hn)]
  unfold cutEvents
  by_cases hk : k ≤ 1 + (f.bytes l).length
  · cases k with
    | zero => simp [callEvents]
    | succ j =>
      have hj : j ≤ (f.bytes l).length := by omega
      have hl := answers_length hs
      obtain ⟨b, bs, hb⟩ : ∃ b bs, t.answers (j + 1) = b :: bs := by
        cases h : t.answers (j + 1) with
        | nil => rw [h] at hl; simp at hl
        | cons b bs => exact ⟨b, bs, rfl⟩
      rw [hb] at hl ⊢
      have hbs : bs.length = j := by simpa using hl
      have h1 : (frameMakers l f).take (j + 1)
          = (fun _ => Event.bracketBegin) :: ((f.bytes l).map fun b _ => Event.wr b).take j := by
        simp only [frameMakers, List.append_assoc, List.cons_append, List.nil_append, List.take_succ_cons]
        rw [List.take_append_of_le_length (by simpa using hj)]
      have h2 : (f.events l (readsOf l f t)).take (j + 1)
          = .bracketBegin :: ((f.bytes l).map Event.wr).take j := by
        simp only [Frame.events, List.append_assoc, List.take_succ_cons]
        rw [List.take_append_of_le_length (by simpa using hj)]
      rw [h1, h2]
      simp [callEvents, ← hwr (f.bytes l) bs j hbs hj]
  · obtain ⟨j, rfl⟩ : ∃ j, k = 1 + (f.bytes l).length + j := ⟨k - (1 + (f.bytes l).length), by omega⟩
    have hj : j ≤ f.reads := by omega
    have hsw : t.serves (1 + (f.bytes l).length) = true := serves_mono (by omega) hs
    have hsj : (t.advance (1 + (f.bytes l).length)).serves j = true := by
      rw [serves_add, Bool.and_eq_true] at hs; exact hs.2
    have hreads : readsOf l f t = (t.advance (1 + (f.bytes l).length)).answers j := by
      unfold readsOf
      obtain ⟨d, hd⟩ := Nat.exists_eq_add_of_le hj
      rw [hd, answers_add _ hsj, ← advance_add, hfailn _ _ hfail, List.append_nil]
    have hlw := answers_length hsw
    have hlj := answers_length hsj
    rw [answers_add _ hsw, hreads]
    obtain ⟨b, bs, hb⟩ : ∃ b bs, t.answers (1 + (f.bytes l).length) = b :: bs := by
      cases h : t.answers (1 + (f.bytes l).length) with
      | nil => rw [h] at hlw; simp at hlw; omega
      | cons b bs => exact ⟨b, bs, rfl⟩
    rw [hb] at hlw ⊢
    have hbs : bs.length = (f.bytes l).length := by simp at hlw; omega
    generalize hR : (t.advance (1 + (f.bytes l).length)).answers j = R at hlj ⊢
    have hmk : (frameMakers l f).take (1 + (f.bytes l).length + j)
        = (fun _ => Event.bracketBegin) :: (((f.bytes l).map fun b _ => Event.wr b)
            ++ (List.replicate f.reads Event.rd).take j) := by
      simp only [frameMakers, List.append_assoc, List.cons_append, List.nil_append]
      rw [show 1 + (f.bytes l).length + j = ((f.bytes l).length + j) + 1 by omega, List.take_succ_cons]
      have : (f.bytes l).length = ((f.bytes l).map fun b (_ : Byte) => Event.wr b).length := by simp
      rw [this, List.take_length_add_append, List.take_append_of_le_length (by simpa using hj)]
    have hev : (f.events l R).take (1 + (f.bytes l).length + j)
        = .bracketBegin :: ((f.bytes l).map Event.wr ++ R.map Event.rd) := by
      simp only [Frame.events, List.append_assoc]
      rw [show 1 + (f.bytes l).length + j = ((f.bytes l).length + j) + 1 by omega, List.take_succ_cons]
      have : (f.bytes l).length = ((f.bytes l).map Event.wr).length := by simp
      rw [this, List.take_length_add_append, List.take_append_of_le_length (by simp [hlj])]
      simp [← hlj]
    rw [hmk, hev]
    simp only [callEvents, List.cons_append, List.zipWith_cons_cons]
    congr 1
    rw [List.zipWith_append (by simpa using hbs.symm)]
    have h1 := hwr (f.bytes l) bs (f.bytes l).length hbs (le_refl _)
    rw [show ((f.bytes l).map fun b (_ : Byte) => Event.wr b).take (f.bytes l).length
        = ((f.bytes l).map fun b (_ : Byte) => Event.wr b) from List.take_of_length_le (by simp),
      show ((f.bytes l).map Event.wr).take (f.bytes l).length = (f.bytes l).map Event.wr
        from List.take_of_length_le (by simp)] at h1
    rw [h1]
    congr 1
    have h2 := hrd R f.reads (by omega)
    rwa [hlj] at h2

/-! ### The observer -/

/-- The block's own frames are never refused by the observer. -/
theorem consume_dcmd (c : Chip) : c.consume .dcmd = .ok { c with amode := .writeAuto } := rfl
theorem consume_disp (c : Chip) (b : BitVec 3) (en : Bool) :
    c.consume (.disp b en) = .ok { c with bright := b, dispOn := en } := rfl
theorem consume_scan (c : Chip) : c.consume .scan = .ok { c with amode := .unknown } := rfl
theorem consume_wdata {c : Chip} {a : BitVec 4} {data : List Byte} (hm : c.amode = .writeAuto)
    (hl : (Frame.wdata a data).legal = true) :
    c.consume (.wdata a data) = .ok { c with dr := writeRun a.toNat data c.dr } := by
  simp only [Frame.legal, Bool.and_eq_true, decide_eq_true_eq] at hl
  simp [Chip.consume, hm, hl]

/-- What the observer accepts, and what it then holds (R54). -/
theorem consume_ok {c c' : Chip} {f : Frame} (h : c.consume f = .ok c') :
    (f = .dcmd ∧ c' = { c with amode := .writeAuto }) ∨
    (f = .scan ∧ c' = { c with amode := .unknown }) ∨
    (∃ b en, f = .disp b en ∧ c' = { c with bright := b, dispOn := en }) ∨
    (∃ a data, f = .wdata a data ∧ c.amode = .writeAuto ∧ f.legal = true ∧
      c' = { c with dr := writeRun a.toNat data c.dr }) := by
  cases f with
  | dcmd => cases h; exact .inl ⟨rfl, rfl⟩
  | scan => cases h; exact .inr (.inl ⟨rfl, rfl⟩)
  | disp b en => cases h; exact .inr (.inr (.inl ⟨b, en, rfl, rfl⟩))
  | wdata a data =>
    refine .inr (.inr (.inr ⟨a, data, rfl, ?_⟩))
    simp only [Chip.consume] at h
    split at h
    · cases h
    · rename_i hm
      split at h
      · cases h
      · rename_i hl
        cases h
        exact ⟨by simpa using hm, by simp [Frame.legal]; omega, rfl⟩

/-- A data instruction with a meaning is the write or the read command. -/
theorem dataFrame_ok {l : CmdLayout} {rw am tm : Bool} {f : Frame} (h : dataFrame l rw am tm = .ok f) :
    f = .dcmd ∨ f = .scan := by
  unfold dataFrame at h
  split at h
  · cases h
  · split at h
    · split at h
      · cases h; exact .inr rfl
      · cases h
    · split at h
      · cases h
      · cases h; exact .inl rfl

/-- `writeRun` at a register inside the run. -/
theorem writeRun_getElem (ds : List Byte) (a : Nat) (dr : Vector Byte 16) (i : Nat) (hi : i < 16) :
    (writeRun a ds dr)[i] = if h : a ≤ i ∧ i < a + ds.length then ds[i - a]'(by omega) else dr[i] := by
  induction ds generalizing a dr with
  | nil => simp [writeRun]
  | cons d ds ih =>
    simp only [writeRun, ih, List.length_cons]
    by_cases h : a + 1 ≤ i ∧ i < a + 1 + ds.length
    · have h2 : a ≤ i ∧ i < a + (ds.length + 1) := by omega
      rw [dif_pos h, dif_pos h2]
      have : i - a = (i - (a + 1)) + 1 := by omega
      simp [this]
    · rw [dif_neg h]
      by_cases hia : i = a
      · subst hia
        rw [dif_pos (by omega)]
        simp
      · rw [dif_neg (by omega)]
        simp [Ne.symm hia]

/-- A whole image written from register 0 is the image. -/
theorem writeRun_full (v dr : Vector Byte 16) : writeRun 0 v.toList dr = v := by
  ext i hi
  rw [writeRun_getElem _ _ _ _ hi]
  rw [dif_pos (by simpa using hi)]
  simp

/-! ### A frame on the bus -/

/-- A frame whose calls are all answered and that the observer accepts. -/
theorem sendFrame_serves {f : Frame} {s : State} {c : Chip} (htp : s.tp = .bound)
    (hk : f.reads = 0 ∨ s.bus.keepsBracket = true)
    (hs : s.bus.serves (frameMakers s.cfg.layout f).length = true) (hc : s.chip.consume f = .ok c) :
    sendFrame f s = .done (readsOf s.cfg.layout f s.bus)
      { s.exchanged (f.events s.cfg.layout (readsOf s.cfg.layout f s.bus)) with chip := c } := by
  rw [sendFrame, frameCalls_serves f s htp hk hs]
  simp [hc]

/-- A frame cut at its call `k`. -/
theorem sendFrame_failsAt {f : Frame} {s : State} {k : Nat} (htp : s.tp = .bound)
    (hk : f.reads = 0 ∨ s.bus.keepsBracket = true) (hlt : k < (frameMakers s.cfg.layout f).length)
    (hf : s.bus.failsAt k = true) :
    sendFrame f s = .failed (cutFrame f (s.afterCalls (k + 1)
      ((f.events s.cfg.layout (readsOf s.cfg.layout f s.bus)).take k))) := by
  rw [sendFrame, frameCalls_failsAt f s k htp hk hlt hf, cutEvents_eq _ _ _ _ hlt hf]

end Sys2Proof.Machine
end

