-- ==== Sys2Proof/Laws/Sequences.lean ====
section
/-! SUPPORT. What the sequences of frames can do, said once: a register write, a key scan, a display-control frame and an
update of digits go through whole or stop at their first failing call; and what none of them can change. -/

namespace Sys2Proof.Machine

/-! ### A transport with another trace answers alike -/

/-- A transport with another trace and bracket. -/
def Transport.retraced (t : Transport) (log : List Event) (br : Bool) : Transport :=
  { t with log := log, bracket := br }

theorem retraced_answer (t : Transport) (lg : List Event) (br : Bool) :
    (t.retraced lg br).answer = (t.answer.1, t.answer.2.retraced lg br) := by
  unfold Transport.answer Transport.retraced
  cases t.script <;> rfl

theorem retraced_advance (n : Nat) (t : Transport) (lg : List Event) (br : Bool) :
    (t.retraced lg br).advance n = (t.advance n).retraced lg br := by
  induction n generalizing t with
  | zero => rfl
  | succ n ih => simp [Transport.advance, retraced_answer, ih]

theorem retraced_serves (n : Nat) (t : Transport) (lg : List Event) (br : Bool) :
    (t.retraced lg br).serves n = t.serves n := by
  induction n generalizing t with
  | zero => rfl
  | succ n ih => simp [serves_succ, retraced_answer, ih]

theorem retraced_answers (n : Nat) (t : Transport) (lg : List Event) (br : Bool) :
    (t.retraced lg br).answers n = t.answers n := by
  induction n generalizing t with
  | zero => rfl
  | succ n ih =>
    rcases ht : t.answer with ⟨r, t'⟩
    have h2 := retraced_answer t lg br
    rw [ht] at h2
    cases r <;> simp [Transport.answers, ht, h2, ih]

theorem retraced_failsAt (n : Nat) (t : Transport) (lg : List Event) (br : Bool) :
    (t.retraced lg br).failsAt n = t.failsAt n := by
  simp [Transport.failsAt, retraced_serves, retraced_advance, retraced_answer]

theorem failsAt_add (m n : Nat) (t : Transport) :
    t.failsAt (m + n) = (t.serves m && (t.advance m).failsAt n) := by
  simp [Transport.failsAt, serves_add, advance_add, Bool.and_assoc]

theorem failsAt_serves {m k : Nat} {t : Transport} (h : t.failsAt k = true) (hm : m ≤ k) : t.serves m = true := by
  simp only [Transport.failsAt, Bool.and_eq_true] at h
  exact serves_mono hm h.1

theorem exchanged_bus (s : State) (es : List Event) :
    (s.exchanged es).bus = (s.bus.advance es.length).retraced (s.bus.log ++ es) false := rfl

theorem afterCalls_bus (s : State) (n : Nat) (es : List Event) :
    (s.afterCalls n es).bus = (s.bus.advance n).retraced (s.bus.log ++ es) (es.foldl bracketAfter s.bus.bracket) := rfl

@[simp] theorem afterCalls_cfg (s : State) (n : Nat) (es : List Event) : (s.afterCalls n es).cfg = s.cfg := rfl
@[simp] theorem afterCalls_life (s : State) (n : Nat) (es : List Event) : (s.afterCalls n es).life = s.life := rfl
@[simp] theorem afterCalls_wiring (s : State) (n : Nat) (es : List Event) :
    (s.afterCalls n es).wiring = s.wiring := rfl
@[simp] theorem afterCalls_sh (s : State) (n : Nat) (es : List Event) : (s.afterCalls n es).sh = s.sh := rfl
@[simp] theorem afterCalls_tp (s : State) (n : Nat) (es : List Event) : (s.afterCalls n es).tp = s.tp := rfl
@[simp] theorem afterCalls_chip (s : State) (n : Nat) (es : List Event) : (s.afterCalls n es).chip = s.chip := rfl
@[simp] theorem afterCalls_draws (s : State) (n : Nat) (es : List Event) : (s.afterCalls n es).draws = s.draws := rfl
@[simp] theorem afterCalls_port (s : State) (n : Nat) (es : List Event) : (s.afterCalls n es).port = s.port := rfl
@[simp] theorem afterCalls_reply (s : State) (n : Nat) (es : List Event) : (s.afterCalls n es).reply = s.reply := rfl
@[simp] theorem afterCalls_log (s : State) (n : Nat) (es : List Event) :
    (s.afterCalls n es).bus.log = s.bus.log ++ es := rfl
@[simp] theorem afterCalls_keepsBracket (s : State) (n : Nat) (es : List Event) :
    (s.afterCalls n es).bus.keepsBracket = s.bus.keepsBracket := by simp [State.afterCalls]
@[simp] theorem afterCalls_bracket (s : State) (n : Nat) (es : List Event) :
    (s.afterCalls n es).bus.bracket = es.foldl bracketAfter s.bus.bracket := rfl

/-! ### The register write (R104) -/

theorem dcmd_makers (l : CmdLayout) : (frameMakers l .dcmd).length = 3 := rfl
theorem disp_makers (l : CmdLayout) (b : BitVec 3) (en : Bool) : (frameMakers l (.disp b en)).length = 3 := rfl
theorem scan_makers (l : CmdLayout) : (frameMakers l .scan).length = 7 := rfl
theorem wdata_makers (l : CmdLayout) (a : BitVec 4) (d : List Byte) :
    (frameMakers l (.wdata a d)).length = 3 + d.length := by
  rw [frameMakers_length]; simp [Frame.bytes, Frame.reads]; omega

@[simp] theorem readsOf_dcmd (l : CmdLayout) (t : Transport) : readsOf l .dcmd t = [] := rfl
@[simp] theorem readsOf_disp (l : CmdLayout) (b : BitVec 3) (en : Bool) (t : Transport) :
    readsOf l (.disp b en) t = [] := rfl
@[simp] theorem readsOf_wdata (l : CmdLayout) (a : BitVec 4) (d : List Byte) (t : Transport) :
    readsOf l (.wdata a d) t = [] := rfl
theorem readsOf_scan (l : CmdLayout) (t : Transport) : readsOf l .scan t = (t.advance 2).answers 4 := rfl

theorem dcmd_events_length (l : CmdLayout) : (Frame.dcmd.events l []).length = 3 := rfl
theorem wdata_events_length (l : CmdLayout) (a : BitVec 4) (d : List Byte) :
    ((Frame.wdata a d).events l []).length = 3 + d.length := by
  rw [events_length]; simp [Frame.bytes]; omega
theorem writeTrace_length (l : CmdLayout) (a : BitVec 4) (d : List Byte) :
    (writeTrace l a d).length = 6 + d.length := by
  simp [writeTrace, dcmd_events_length, wdata_events_length]; omega

/-- The first frame of a register write, gone through. -/
theorem sendFrame_dcmd {s : State} (htp : s.tp = .bound) (hs : s.bus.serves 3 = true) :
    sendFrame .dcmd s = .done [] { s.exchanged (Frame.dcmd.events s.cfg.layout []) with
      chip := { s.chip with amode := .writeAuto } } := by
  simpa using sendFrame_serves (f := .dcmd) htp (.inl rfl) hs (consume_dcmd _)

/-- A register write all of whose calls are answered. -/
theorem writeRegs_serves {a : BitVec 4} {data : List Byte} {s : State} (htp : s.tp = .bound)
    (hl : (Frame.wdata a data).legal = true) (hs : s.bus.serves (6 + data.length) = true) :
    writeRegs a data s = .done () { s.exchanged (writeTrace s.cfg.layout a data) with
      chip := { s.chip with amode := .writeAuto, dr := writeRun a.toNat data s.chip.dr } } := by
  rw [show 6 + data.length = 3 + (3 + data.length) by omega, serves_add, Bool.and_eq_true] at hs
  rw [writeRegs, sendFrame_dcmd htp hs.1, bind_done]
  rw [sendFrame_serves (f := .wdata a data) (c := { s.chip with amode := .writeAuto, dr := writeRun a.toNat data s.chip.dr })]
  · simp only [bind_done, readsOf_wdata]
    congr 1
    simp only [State.exchanged, dcmd_events_length, writeTrace, wdata_events_length, List.length_append]
    have := retraced_advance (3 + data.length) (s.bus.advance 3)
      (s.bus.log ++ Frame.dcmd.events s.cfg.layout []) false
    simp only [Transport.retraced] at this
    rw [this]
    simp [advance_add]
  · exact htp
  · exact .inl rfl
  · rw [wdata_makers]
    exact (retraced_serves _ (s.bus.advance 3) _ _).trans hs.2
  · exact consume_wdata rfl hl

/-- The frame of a register write that its call `k` belongs to: the write command has the first three calls. -/
def writeCut (a : BitVec 4) (data : List Byte) (k : Nat) : Frame := if k < 3 then .dcmd else .wdata a data

theorem writeCut_addresses (a : BitVec 4) (data : List Byte) (k r : Nat) :
    (writeCut a data k).addresses r = true ↔ 3 ≤ k ∧ a.toNat ≤ r ∧ r < a.toNat + data.length := by
  unfold writeCut
  split <;> simp [Frame.addresses] <;> omega

/-- A register write cut at its call `k`: the events before it are recorded, and the observer is cut at that call's
frame. -/
theorem writeRegs_failsAt {a : BitVec 4} {data : List Byte} {s : State} {k : Nat} (htp : s.tp = .bound)
    (hk : k < 6 + data.length) (hf : s.bus.failsAt k = true) :
    writeRegs a data s = .failed
      (cutFrame (writeCut a data k) (s.afterCalls (k + 1) ((writeTrace s.cfg.layout a data).take k))) := by
  by_cases h3 : k < 3
  · rw [writeCut, if_pos h3, writeRegs, sendFrame_failsAt (f := .dcmd) htp (.inl rfl) h3 hf, bind_failed]
    have : (writeTrace s.cfg.layout a data).take k = (Frame.dcmd.events s.cfg.layout []).take k := by
      rw [writeTrace, List.take_append_of_le_length (by rw [dcmd_events_length]; omega)]
    rw [this, readsOf_dcmd]
  · obtain ⟨j, rfl⟩ : ∃ j, k = 3 + j := ⟨k - 3, by omega⟩
    rw [failsAt_add, Bool.and_eq_true] at hf
    have hs1 := sendFrame_dcmd htp hf.1
    rw [writeRegs, hs1, bind_done]
    rw [writeCut, if_neg h3, sendFrame_failsAt (f := .wdata a data) (k := j)]
    · simp only [bind_failed, readsOf_wdata]
      congr 1
      simp only [cutFrame, State.afterCalls, State.exchanged, dcmd_events_length]
      have := retraced_advance (j + 1) (s.bus.advance 3) (s.bus.log ++ Frame.dcmd.events s.cfg.layout []) false
      simp only [Transport.retraced] at this
      rw [this]
      have ht : (writeTrace s.cfg.layout a data).take (3 + j)
          = Frame.dcmd.events s.cfg.layout [] ++ ((Frame.wdata a data).events s.cfg.layout []).take j := by
        rw [writeTrace, show 3 + j = (Frame.dcmd.events s.cfg.layout []).length + j by rw [dcmd_events_length],
          List.take_length_add_append]
      rw [ht]
      simp [← advance_add, Nat.add_assoc, Chip.cut]
    · exact htp
    · exact .inl rfl
    · show j < (frameMakers s.cfg.layout (.wdata a data)).length
      rw [wdata_makers]; omega
    · exact (retraced_failsAt _ (s.bus.advance 3) _ _).trans hf.2

/-! ### The display-control frame (R106) and the key scan (R105) -/

theorem dispCtrl_serves {brightness : Nat} {en : Bool} {s : State} (htp : s.tp = .bound)
    (hs : s.bus.serves 3 = true) :
    dispCtrl brightness en s = .done () { s.exchanged
        ((Frame.disp (brightnessField brightness) en).events s.cfg.layout []) with
      chip := { s.chip with bright := brightnessField brightness, dispOn := en } } := by
  rw [dispCtrl, sendFrame_serves htp (.inl rfl) (by rw [disp_makers]; exact hs) (consume_disp _ _ _)]
  simp

theorem dispCtrl_failsAt {brightness : Nat} {en : Bool} {s : State} {k : Nat} (htp : s.tp = .bound) (hk : k < 3)
    (hf : s.bus.failsAt k = true) :
    dispCtrl brightness en s = .failed (cutFrame (.disp (brightnessField brightness) en)
      (s.afterCalls (k + 1) (((Frame.disp (brightnessField brightness) en).events s.cfg.layout []).take k))) := by
  rw [dispCtrl, sendFrame_failsAt htp (.inl rfl) (by rw [disp_makers]; exact hk) hf]
  simp

theorem scanRead_serves {s : State} (htp : s.tp = .bound) (hk : s.bus.keepsBracket = true)
    (hs : s.bus.serves 7 = true) :
    let reg := (s.bus.advance 2).answers 4
    scanRead s = .done #v[reg.getD 0 0, reg.getD 1 0, reg.getD 2 0, reg.getD 3 0]
      { s.exchanged (Frame.scan.events s.cfg.layout reg) with chip := { s.chip with amode := .unknown } } := by
  simp only
  rw [scanRead, sendFrame_serves htp (.inr hk) (by rw [scan_makers]; exact hs) (consume_scan _), bind_done]
  rfl

theorem scanRead_failsAt {s : State} {k : Nat} (htp : s.tp = .bound) (hk : s.bus.keepsBracket = true) (h7 : k < 7)
    (hf : s.bus.failsAt k = true) :
    scanRead s = .failed (cutFrame .scan (s.afterCalls (k + 1) ((scanTrace s).take k))) := by
  rw [scanRead, sendFrame_failsAt htp (.inr hk) (by rw [scan_makers]; exact h7) hf]
  rfl

/-! ### What no sequence can change -/

/-- `t` comes from `s` by transport calls and what the observer makes of them: the block's own state, the parameters,
the port and the reply are the same, the transport is the same but for its answers, and its trace has grown with the
bracket following it. -/
structure Exchanged (s t : State) : Prop where
  rest : t = { s with bus := t.bus, chip := t.chip, draws := t.draws }
  kind : t.bus.kind = s.bus.kind
  keeps : t.bus.keepsBracket = s.bus.keepsBracket
  log : ∃ es, t.bus.log = s.bus.log ++ es ∧ t.bus.bracket = es.foldl bracketAfter s.bus.bracket

theorem Exchanged.refl (s : State) : Exchanged s s := ⟨rfl, rfl, rfl, [], by simp⟩

theorem Exchanged.trans {s t u : State} (h : Exchanged s t) (k : Exchanged t u) : Exchanged s u := by
  obtain ⟨es, h1, h2⟩ := h.log
  obtain ⟨fs, k1, k2⟩ := k.log
  refine ⟨?_, k.kind.trans h.kind, k.keeps.trans h.keeps, es ++ fs, ?_, ?_⟩
  · have := k.rest; rw [h.rest] at this; exact this
  · rw [k1, h1, List.append_assoc]
  · rw [k2, h2, List.foldl_append]

theorem Exchanged.life {s t : State} (h : Exchanged s t) : t.life = s.life := by rw [h.rest]
theorem Exchanged.wiring {s t : State} (h : Exchanged s t) : t.wiring = s.wiring := by rw [h.rest]
theorem Exchanged.sh {s t : State} (h : Exchanged s t) : t.sh = s.sh := by rw [h.rest]
theorem Exchanged.tp {s t : State} (h : Exchanged s t) : t.tp = s.tp := by rw [h.rest]
theorem Exchanged.cfg {s t : State} (h : Exchanged s t) : t.cfg = s.cfg := by rw [h.rest]
theorem Exchanged.port {s t : State} (h : Exchanged s t) : t.port = s.port := by rw [h.rest]

/-- A sequence that only exchanges: whichever way it ends, the state it leaves comes from the one it starts in by
transport calls. -/
def Exchanges {α : Type} (r : Run α) (s : State) : Prop :=
  (∀ a t, r = .done a t → Exchanged s t) ∧ (∀ t, r = .failed t → Exchanged s t)

theorem Exchanges.done {α : Type} (a : α) (s : State) : Exchanges (.done a s) s :=
  ⟨by rintro _ _ ⟨⟩; exact .refl s, by rintro _ ⟨⟩⟩

theorem Exchanges.bind {α β : Type} {r : Run α} {s : State} {k : α → State → Run β} (h : Exchanges r s)
    (hk : ∀ a t, Exchanges (k a t) t) : Exchanges (r.bind k) s := by
  cases r with
  | done a t =>
    have := h.1 a t rfl
    exact ⟨fun b u hb => this.trans ((hk a t).1 b u hb), fun u hu => this.trans ((hk a t).2 u hu)⟩
  | failed t => exact ⟨by rintro _ _ ⟨⟩, fun u hu => by cases hu; exact h.2 t rfl⟩
  | faulted f => exact ⟨by rintro _ _ ⟨⟩, by rintro _ ⟨⟩⟩
  | refused e => exact ⟨by rintro _ _ ⟨⟩, by rintro _ ⟨⟩⟩

theorem txCall_exchanges (mk : Byte → Event) (s : State) : Exchanges (txCall mk s) s := by
  rcases (show s.tp = .unbound ∨ s.tp = .bound by cases s.tp <;> simp) with htp | htp
  · simp only [txCall, htp]
    exact ⟨by rintro _ _ ⟨⟩, by rintro _ ⟨⟩⟩
  · cases ha : s.bus.answer.1 with
    | ok b =>
      rw [txCall_ok htp ha]
      refine ⟨?_, by rintro _ ⟨⟩⟩
      rintro _ _ ⟨⟩
      exact ⟨rfl, by simp, by simp, [mk b], by simp, by simp⟩
    | fail =>
      rw [txCall_fail htp ha]
      refine ⟨by rintro _ _ ⟨⟩, ?_⟩
      rintro _ ⟨⟩
      exact ⟨rfl, by simp, by simp, [], by simp, by simp⟩

theorem writeBytes_exchanges (bs : List Byte) (s : State) : Exchanges (writeBytes bs s) s := by
  induction bs generalizing s with
  | nil => exact .done () s
  | cons b bs ih => exact (txCall_exchanges _ s).bind fun _ t => ih t

theorem readBytes_exchanges (n : Nat) (s : State) : Exchanges (readBytes n s) s := by
  induction n generalizing s with
  | zero => exact .done [] s
  | succ n ih => exact (txCall_exchanges _ s).bind fun _ t => (ih t).bind fun _ u => .done _ u

theorem turnAround_exchanges (n : Nat) (s : State) : Exchanges (turnAround n s) s := by
  unfold turnAround
  split
  · exact .done () s
  · exact ⟨by rintro _ _ ⟨⟩, by rintro _ ⟨⟩⟩

theorem frameCalls_exchanges (f : Frame) (s : State) : Exchanges (frameCalls f s) s :=
  (txCall_exchanges _ s).bind fun _ t => (writeBytes_exchanges _ t).bind fun _ u =>
    (turnAround_exchanges _ u).bind fun _ v => (readBytes_exchanges _ v).bind fun _ w =>
      (txCall_exchanges _ w).bind fun _ x => .done _ x

theorem sendFrame_exchanges (f : Frame) (s : State) : Exchanges (sendFrame f s) s := by
  have h := frameCalls_exchanges f s
  unfold sendFrame
  cases hc : frameCalls f s with
  | done as t =>
    have ht := h.1 as t hc
    simp only
    cases t.chip.consume f with
    | ok c =>
      refine ⟨?_, by rintro _ ⟨⟩⟩
      rintro _ _ ⟨⟩
      exact ht.trans ⟨rfl, rfl, rfl, [], by simp⟩
    | error e => exact ⟨by rintro _ _ ⟨⟩, by rintro _ ⟨⟩⟩
  | failed t =>
    have ht := h.2 t hc
    refine ⟨by rintro _ _ ⟨⟩, ?_⟩
    rintro _ ⟨⟩
    exact ht.trans ⟨rfl, rfl, rfl, [], by simp⟩
  | faulted e => exact ⟨by rintro _ _ ⟨⟩, by rintro _ ⟨⟩⟩
  | refused e => exact ⟨by rintro _ _ ⟨⟩, by rintro _ ⟨⟩⟩

theorem writeRegs_exchanges (a : BitVec 4) (d : List Byte) (s : State) : Exchanges (writeRegs a d s) s :=
  (sendFrame_exchanges _ s).bind fun _ t => (sendFrame_exchanges _ t).bind fun _ u => .done () u

theorem scanRead_exchanges (s : State) : Exchanges (scanRead s) s :=
  (sendFrame_exchanges _ s).bind fun _ t => .done _ t

theorem dispCtrl_exchanges (b : Nat) (en : Bool) (s : State) : Exchanges (dispCtrl b en s) s :=
  (sendFrame_exchanges _ s).bind fun _ t => .done () t

theorem cathodeWrite_exchanges (start : Nat) (ps : List Byte) (s : State) : Exchanges (cathodeWrite start ps s) s := by
  unfold cathodeWrite
  simp only
  split
  · exact .done () s
  · exact writeRegs_exchanges _ _ s

theorem writeDigits_anode {s : State} (h : s.wiring = some .commonAnode) (start : Nat) (ps : List Byte) :
    writeDigits start ps s = anodeWrite start ps s ∧ digitsShadow start ps s = updateDigits start ps s.sh ∧
      digitsCalls start ps s = 22 ∧
      digitsTrace start ps s = writeTrace s.cfg.layout 0 (updateDigits start ps s.sh).toList := by
  simp [writeDigits, digitsShadow, digitsCalls, digitsTrace, h]

theorem writeDigits_cathode {s : State} (h : s.wiring = some .commonCathode) (start : Nat) (ps : List Byte) :
    writeDigits start ps s = cathodeWrite start ps s ∧ digitsShadow start ps s = s.sh ∧
      digitsCalls start ps s = (if cathodeCount start ps.length = 0 then 0 else 6 + cathodeCount start ps.length) ∧
      digitsTrace start ps s = (if cathodeCount start ps.length = 0 then []
        else writeTrace s.cfg.layout (BitVec.ofNat 4 start) (ps.take (cathodeCount start ps.length))) := by
  simp [writeDigits, digitsShadow, digitsCalls, digitsTrace, h]

theorem writeDigits_unset {s : State} (h : s.wiring = none) (start : Nat) (ps : List Byte) :
    writeDigits start ps s = .faulted .wiringUnset := by simp [writeDigits, h]

theorem wiring_cases (s : State) :
    s.wiring = none ∨ s.wiring = some .commonCathode ∨ s.wiring = some .commonAnode := by
  rcases h : s.wiring with _ | _ | _ <;> simp

/-- An update of digits: its shadow, then an exchange. -/
theorem writeDigits_exchanges (start : Nat) (ps : List Byte) (s : State) :
    Exchanges (writeDigits start ps s) { s with sh := digitsShadow start ps s } := by
  rcases wiring_cases s with h | h | h
  · rw [writeDigits_unset h]
    exact ⟨by rintro _ _ ⟨⟩, by rintro _ ⟨⟩⟩
  · rw [(writeDigits_cathode h start ps).1, (writeDigits_cathode h start ps).2.1]
    exact cathodeWrite_exchanges _ _ _
  · rw [(writeDigits_anode h start ps).1, (writeDigits_anode h start ps).2.1]
    exact writeRegs_exchanges _ _ _

/-! ### No sequence faults while a transport is bound -/

/-- A sequence that does not fault from a state with a bound transport. -/
def Faultless {α : Type} (r : Run α) (s : State) : Prop := s.tp = .bound → ∀ e, r ≠ .faulted e

theorem Faultless.bind {α β : Type} {r : Run α} {s : State} {k : α → State → Run β} (h : Faultless r s)
    (he : Exchanges r s) (hk : ∀ a t, Faultless (k a t) t) : Faultless (r.bind k) s := by
  intro htp e
  cases r with
  | done a t => exact hk a t ((he.1 a t rfl).tp.trans htp) e
  | failed t => rintro ⟨⟩
  | faulted f => exact fun _ => h htp f rfl
  | refused x => rintro ⟨⟩

theorem Faultless.done {α : Type} (a : α) (s : State) : Faultless (.done a s) s := fun _ _ => by rintro ⟨⟩

theorem txCall_faultless (mk : Byte → Event) (s : State) : Faultless (txCall mk s) s := by
  intro htp e
  cases ha : s.bus.answer.1 with
  | ok b => rw [txCall_ok htp ha]; rintro ⟨⟩
  | fail => rw [txCall_fail htp ha]; rintro ⟨⟩

theorem writeBytes_faultless (bs : List Byte) (s : State) : Faultless (writeBytes bs s) s := by
  induction bs generalizing s with
  | nil => exact .done () s
  | cons b bs ih => exact (txCall_faultless _ s).bind (txCall_exchanges _ s) fun _ t => ih t

theorem readBytes_faultless (n : Nat) (s : State) : Faultless (readBytes n s) s := by
  induction n generalizing s with
  | zero => exact .done [] s
  | succ n ih =>
    exact (txCall_faultless _ s).bind (txCall_exchanges _ s) fun _ t =>
      (ih t).bind (readBytes_exchanges n t) fun _ u => .done _ u

theorem turnAround_faultless (n : Nat) (s : State) : Faultless (turnAround n s) s := by
  intro _ e
  unfold turnAround
  split <;> rintro ⟨⟩

theorem frameCalls_faultless (f : Frame) (s : State) : Faultless (frameCalls f s) s :=
  (txCall_faultless _ s).bind (txCall_exchanges _ s) fun _ t =>
    (writeBytes_faultless _ t).bind (writeBytes_exchanges _ t) fun _ u =>
      (turnAround_faultless _ u).bind (turnAround_exchanges _ u) fun _ v =>
        (readBytes_faultless _ v).bind (readBytes_exchanges _ v) fun _ w =>
          (txCall_faultless _ w).bind (txCall_exchanges _ w) fun _ x => .done _ x

theorem sendFrame_faultless (f : Frame) (s : State) : Faultless (sendFrame f s) s := by
  intro htp e
  have h := frameCalls_faultless f s htp
  unfold sendFrame
  cases hc : frameCalls f s with
  | done as t => simp only; cases t.chip.consume f <;> rintro ⟨⟩
  | failed t => rintro ⟨⟩
  | faulted x => exact absurd hc (h x)
  | refused x => rintro ⟨⟩

theorem writeRegs_faultless (a : BitVec 4) (d : List Byte) (s : State) : Faultless (writeRegs a d s) s :=
  (sendFrame_faultless _ s).bind (sendFrame_exchanges _ s) fun _ t =>
    (sendFrame_faultless _ t).bind (sendFrame_exchanges _ t) fun _ u => .done () u

theorem scanRead_faultless (s : State) : Faultless (scanRead s) s :=
  (sendFrame_faultless _ s).bind (sendFrame_exchanges _ s) fun _ t => .done _ t

theorem dispCtrl_faultless (b : Nat) (en : Bool) (s : State) : Faultless (dispCtrl b en s) s :=
  (sendFrame_faultless _ s).bind (sendFrame_exchanges _ s) fun _ t => .done () t

/-! ### Updates of digits -/

theorem cathodeCount_of_lt {start : Nat} (h : start < 16) (n : Nat) : cathodeCount start n = min n (16 - start) :=
  if_neg (Nat.not_le.mpr h)

theorem cathodeCount_of_ge {start : Nat} (h : 16 ≤ start) (n : Nat) : cathodeCount start n = 0 := if_pos h

theorem cathodeCount_le (start n : Nat) : cathodeCount start n ≤ n := by
  unfold cathodeCount; split
  · omega
  · exact Nat.min_le_left _ _

theorem cathode_legal {start : Nat} {ps : List Byte} (h : cathodeCount start ps.length ≠ 0) :
    start < 16 ∧ start + cathodeCount start ps.length ≤ 16 := by
  unfold cathodeCount cathodeDigits at *
  split at h
  · omega
  · constructor
    · omega
    · rw [if_neg (by assumption)]
      have := Nat.min_le_right ps.length (16 - start)
      omega

theorem cathode_frame_legal {start : Nat} {ps : List Byte} (h : cathodeCount start ps.length ≠ 0) :
    (Frame.wdata (BitVec.ofNat 4 start) (ps.take (cathodeCount start ps.length))).legal = true := by
  obtain ⟨h1, h2⟩ := cathode_legal h
  have hlen : (ps.take (cathodeCount start ps.length)).length = cathodeCount start ps.length := by
    simp [cathodeCount_le]
  have ht : (BitVec.ofNat 4 start).toNat = start := by simp; omega
  simp only [Frame.legal, hlen, ht, Bool.and_eq_true, decide_eq_true_eq]
  omega

theorem flush_frame_legal (v : Vector Byte 16) : (Frame.wdata 0 v.toList).legal = true := by
  simp [Frame.legal]

/-- An update of digits faults only without a wiring or a bound transport. -/
theorem writeDigits_faultless (start : Nat) (ps : List Byte) (s : State) (hw : s.wiring ≠ none) :
    Faultless (writeDigits start ps s) s := by
  rcases wiring_cases s with h | h | h
  · exact absurd h hw
  · rw [(writeDigits_cathode h start ps).1]
    unfold cathodeWrite
    simp only
    split
    · exact .done () s
    · exact writeRegs_faultless _ _ s
  · rw [(writeDigits_anode h start ps).1]
    intro htp e
    exact writeRegs_faultless _ _ { s with sh := updateDigits start ps s.sh } htp e

theorem cathode_data_length (start : Nat) (ps : List Byte) :
    (ps.take (cathodeCount start ps.length)).length = cathodeCount start ps.length := by
  simp [cathodeCount_le]

/-- An anode update all of whose calls are answered. -/
theorem anodeWrite_serves {start : Nat} {ps : List Byte} {s : State} (htp : s.tp = .bound)
    (hs : s.bus.serves 22 = true) :
    ∃ t, anodeWrite start ps s = .done () t ∧ t.respond .ok none = anodeResult start ps s :=
  ⟨_, writeRegs_serves (s := { s with sh := updateDigits start ps s.sh }) htp (flush_frame_legal _)
    (by simpa using hs), rfl⟩

/-- A cathode update all of whose calls are answered. -/
theorem cathodeWrite_serves {start : Nat} {ps : List Byte} {s : State} (htp : s.tp = .bound)
    (hw : s.wiring = some .commonCathode) (hs : s.bus.serves (digitsCalls start ps s) = true) :
    ∃ t, cathodeWrite start ps s = .done () t ∧ t.respond .ok none = cathodeResult start ps s := by
  simp only [cathodeWrite, cathodeResult, digitsCalls, hw] at *
  by_cases hm : cathodeCount start ps.length = 0
  · rw [if_pos hm, if_pos hm]
    exact ⟨s, rfl, rfl⟩
  · rw [if_neg hm] at hs ⊢
    rw [if_neg hm]
    exact ⟨_, writeRegs_serves htp (cathode_frame_legal hm) (by rw [cathode_data_length]; exact hs), rfl⟩

/-- The frame of an update of digits that its call `k` belongs to. -/
def digitsCut (start : Nat) (ps : List Byte) (s : State) (k : Nat) : Frame :=
  match s.wiring with
  | some .commonAnode => writeCut 0 (updateDigits start ps s.sh).toList k
  | some .commonCathode => writeCut (BitVec.ofNat 4 start) (ps.take (cathodeCount start ps.length)) k
  | none => .dcmd

/-- The registers that frame addresses: none before call 3, then all of them under CommonAnode and those of the patterns
under CommonCathode. -/
theorem digitsCut_addresses {start : Nat} {ps : List Byte} {s : State} {k r : Nat}
    (hk : k < digitsCalls start ps s) (hr : r < 16) :
    (digitsCut start ps s k).addresses r = true ↔
      3 ≤ k ∧ (s.wiring = some .commonCathode → start ≤ r ∧ r < start + ps.length) := by
  rcases wiring_cases s with h | h | h
  · simp [digitsCalls, h] at hk
  · rw [(writeDigits_cathode h start ps).2.2.1] at hk
    have hm : cathodeCount start ps.length ≠ 0 := fun h0 => by simp [h0] at hk
    have hl := (cathode_legal hm).1
    have hc := cathodeCount_of_lt hl ps.length
    have ht : (BitVec.ofNat 4 start).toNat = start := by simp; omega
    simp only [digitsCut, h, writeCut_addresses, cathode_data_length, ht]
    simp only [forall_const]
    omega
  · simp only [digitsCut, h, writeCut_addresses, Vector.length_toList]
    simp
    omega

/-- An update of digits cut at its call `k`. -/
theorem writeDigits_failsAt {start : Nat} {ps : List Byte} {s : State} {k : Nat} (htp : s.tp = .bound)
    (hk : k < digitsCalls start ps s) (hf : s.bus.failsAt k = true) :
    writeDigits start ps s = .failed (cutFrame (digitsCut start ps s k)
      (({ s with sh := digitsShadow start ps s } : State).afterCalls (k + 1) ((digitsTrace start ps s).take k))) := by
  rcases wiring_cases s with h | h | h
  · simp [digitsCalls, h] at hk
  · obtain ⟨h1, h2, h3, h4⟩ := writeDigits_cathode h start ps
    rw [h1, h2, h4, cathodeWrite]
    rw [h3] at hk
    by_cases hm : cathodeCount start ps.length = 0
    · rw [if_pos hm] at hk; omega
    · rw [if_neg hm] at hk
      have hd : digitsCut start ps s k =
          writeCut (BitVec.ofNat 4 start) (ps.take (cathodeCount start ps.length)) k := by simp only [digitsCut, h]
      simp only [if_neg hm, hd]
      exact writeRegs_failsAt htp (by rw [cathode_data_length]; exact hk) hf
  · obtain ⟨h1, h2, h3, h4⟩ := writeDigits_anode h start ps
    rw [h1, h2, h4]
    rw [h3] at hk
    have hd : digitsCut start ps s k = writeCut 0 (updateDigits start ps s.sh).toList k := by simp only [digitsCut, h]
    rw [hd]
    exact writeRegs_failsAt (data := (updateDigits start ps s.sh).toList) (s := { s with sh := updateDigits start ps s.sh }) htp (by simpa using hk) hf

/-! ### The end of an operation -/

@[simp] theorem plain_done (u : Unit) (s : State) : plain (.done u s) = .next (s.respond .ok none) := rfl
@[simp] theorem plain_failed (s : State) : plain (.failed s) = .next (s.respond .transportError none) := rfl
@[simp] theorem plain_faulted (f : Fault) : plain (.faulted f) = .fault f := rfl
@[simp] theorem plain_refused (e : Refusal) : plain (.refused e) = .refused e := rfl

theorem admit_pos {need : Life} {body : State → Host.Outcome State Fault Refusal} {s : State} (h : s.life = need) :
    ifAdmitted need body s = body s := if_pos h
theorem admit_neg {need : Life} {body : State → Host.Outcome State Fault Refusal} {s : State} (h : s.life ≠ need) :
    ifAdmitted need body s = .next (s.respond .notReady none) := if_neg h

end Sys2Proof.Machine
end

