-- ==== Sys2Proof/Laws/Requests.lean ====
section
/-! SUPPORT. What an instruction and a step can do, said once: an inversion lemma for the chip frames, one for the
requests and one for a step. -/

namespace Sys2Proof.Machine

/-- The shadow a request leaves on a Ready block (R23). -/
def requestShadow (i : Instr) (s : State) : Vector Byte 16 :=
  match digitsOf s.cfg.segLut i with
  | some (start, ps) => digitsShadow start ps s
  | none => s.sh

/-- How a request that answers a next state ends. -/
inductive RequestEnd (i : Instr) (s : State) : State → Prop where
  /-- not admitted (R244) -/
  | notReady : RequestEnd i s (s.respond .notReady none)
  /-- `initialize` on an Unbound block (R201) -/
  | initialized (w : Wiring) (h : i = .initDevice w) (hl : s.life = .unbound) : RequestEnd i s (initializeBody w s)
  /-- `shutdown` on a Ready block (R208) -/
  | released (h : i = .shutdown) (hl : s.life = .ready) : RequestEnd i s (shutdownBody s)
  /-- an operation that went through (R240) -/
  | ok (u : State) (mask : Option KeyMask) (hl : s.life = .ready) (he : Exchanged { s with sh := requestShadow i s } u)
      (hm : mask ≠ none ↔ i = .scanKeys) (hi : ∀ w, i ≠ .initDevice w) (hs : i ≠ .shutdown) :
      RequestEnd i s (u.respond .ok mask)
  /-- an operation cut by a transport failure (R241) -/
  | failed (u : State) (hl : s.life = .ready) (he : Exchanged { s with sh := requestShadow i s } u)
      (hi : ∀ w, i ≠ .initDevice w) (hs : i ≠ .shutdown) : RequestEnd i s (u.respond .transportError none)

theorem digitsOf_exec {i : Instr} {s : State} {start : Nat} {ps : List Byte}
    (h : digitsOf s.cfg.segLut i = some (start, ps)) :
    exec i s = ifAdmitted .ready (fun _ => plain (writeDigits start ps s)) s := by
  unfold digitsOf at h
  split at h <;> simp at h <;> obtain ⟨rfl, rfl⟩ := h <;>
    simp only [exec, execSetDigit, execSetDigits, execSetDigitHex, execSetDigitsHex, ifAdmitted]

/-- The end of an admitted operation without a mask. -/
theorem plain_next {r : Run Unit} {s t : State} {i : Instr} (hl : s.life = .ready)
    (he : Exchanges r { s with sh := requestShadow i s }) (h : plain r = .next t) (hi : ∀ w, i ≠ .initDevice w)
    (hs : i ≠ .shutdown) (hsc : i ≠ .scanKeys) : RequestEnd i s t := by
  cases r with
  | done a u => cases h; exact .ok u none hl (he.1 _ _ rfl) (by simp [hsc]) hi hs
  | failed u => cases h; exact .failed u hl (he.2 _ rfl) hi hs
  | faulted f => cases h
  | refused e => cases h

/-- Every next state of a request is one of `RequestEnd`'s. -/
theorem exec_request {i : Instr} {s t : State} (hi : i.isRequest = true) (h : exec i s = .next t) :
    RequestEnd i s t := by
  have digits : ∀ start ps, digitsOf s.cfg.segLut i = some (start, ps) → (∀ w, i ≠ .initDevice w) → i ≠ .shutdown →
      i ≠ .scanKeys → RequestEnd i s t := by
    intro start ps hd h1 h2 h3
    rw [digitsOf_exec hd] at h
    by_cases hl : s.life = .ready
    · rw [admit_pos hl] at h
      refine plain_next hl ?_ h h1 h2 h3
      have := writeDigits_exchanges start ps s
      simpa [requestShadow, hd] using this
    · rw [admit_neg hl] at h; cases h; exact .notReady
  cases i with
  | dataWriteAuto => simp [Instr.isRequest] at hi
  | dataReadKeys => simp [Instr.isRequest] at hi
  | dataWriteFixed => simp [Instr.isRequest] at hi
  | dataGeneric => simp [Instr.isRequest] at hi
  | addrSet => simp [Instr.isRequest] at hi
  | dispCtrl => simp [Instr.isRequest] at hi
  | class00 => simp [Instr.isRequest] at hi
  | initDevice w =>
    simp only [exec, execInitialize] at h
    by_cases hl : s.life = .unbound
    · rw [admit_pos hl] at h; cases h; exact .initialized w rfl hl
    · rw [admit_neg hl] at h; cases h; exact .notReady
  | configureDisplay b en =>
    simp only [exec, execConfigureDisplay] at h
    by_cases hl : s.life = .ready
    · rw [admit_pos hl] at h
      exact plain_next hl (dispCtrl_exchanges b en s) h (by simp) (by simp) (by simp)
    · rw [admit_neg hl] at h; cases h; exact .notReady
  | setDigit p x => exact digits _ _ rfl (by simp) (by simp) (by simp)
  | setDigits p xs => exact digits _ _ rfl (by simp) (by simp) (by simp)
  | setDigitHex p v d => exact digits _ _ rfl (by simp) (by simp) (by simp)
  | setDigitsHex p items => exact digits _ _ rfl (by simp) (by simp) (by simp)
  | scanKeys =>
    simp only [exec, execScanKeys] at h
    by_cases hl : s.life = .ready
    · rw [admit_pos hl] at h
      have he := scanRead_exchanges s
      cases hr : scanRead s with
      | done reg u =>
        rw [hr] at h; cases h
        exact .ok u _ hl (he.1 _ _ hr) (by simp) (by simp) (by simp)
      | failed u => rw [hr] at h; cases h; exact .failed u hl (he.2 _ hr) (by simp) (by simp)
      | faulted f => rw [hr] at h; cases h
      | refused e => rw [hr] at h; cases h
    · rw [admit_neg hl] at h; cases h; exact .notReady
  | shutdown =>
    simp only [exec, execShutdown] at h
    by_cases hl : s.life = .ready
    · rw [admit_pos hl] at h; cases h; exact .released rfl hl
    · rw [admit_neg hl] at h; cases h; exact .notReady
  | reservedTag low ops => cases h

/-- A chip frame that answers a next state changes the observer alone. -/
theorem observeFrame_next {f : Frame} {s t : State} (h : observeFrame f s = .next t) :
    ∃ c, s.chip.consume f = .ok c ∧ t = { s with chip := c } := by
  unfold observeFrame at h
  split at h
  · cases h; exact ⟨_, ‹_›, rfl⟩
  · cases h

theorem exec_chipFrame {i : Instr} {s t : State} (hi : i.isRequest = false) (h : exec i s = .next t) :
    ∃ f c, frameOf s.cfg.layout i = some f ∧ s.chip.consume f = .ok c ∧ t = { s with chip := c } := by
  cases i with
  | dataWriteAuto => obtain ⟨c, h1, h2⟩ := observeFrame_next (f := .dcmd) h; exact ⟨_, c, rfl, h1, h2⟩
  | dataReadKeys => obtain ⟨c, h1, h2⟩ := observeFrame_next (f := .scan) h; exact ⟨_, c, rfl, h1, h2⟩
  | dataWriteFixed => cases h
  | dataGeneric rw am tm =>
    simp only [exec, execDataGeneric] at h
    cases hd : dataFrame s.cfg.layout rw am tm with
    | ok f =>
      rw [hd] at h
      obtain ⟨c, h1, h2⟩ := observeFrame_next h
      exact ⟨f, c, by simp [frameOf, hd, Except.toOption], h1, h2⟩
    | error e => rw [hd] at h; cases h
  | addrSet a data => obtain ⟨c, h1, h2⟩ := observeFrame_next (f := .wdata a data) h; exact ⟨_, c, rfl, h1, h2⟩
  | dispCtrl b en => obtain ⟨c, h1, h2⟩ := observeFrame_next (f := .disp b en) h; exact ⟨_, c, rfl, h1, h2⟩
  | class00 low => cases h
  | initDevice w => simp [Instr.isRequest] at hi
  | configureDisplay b en => simp [Instr.isRequest] at hi
  | setDigit p x => simp [Instr.isRequest] at hi
  | setDigits p xs => simp [Instr.isRequest] at hi
  | setDigitHex p v d => simp [Instr.isRequest] at hi
  | setDigitsHex p items => simp [Instr.isRequest] at hi
  | scanKeys => simp [Instr.isRequest] at hi
  | shutdown => simp [Instr.isRequest] at hi
  | reservedTag low ops => simp [Instr.isRequest] at hi

/-- How a step that answers a next state ends: it waits, it resets the block, it powers on, or it runs an
instruction. -/
theorem step_cases {s t : State} (h : step s = .next t) :
    (s.port = [] ∧ t = s) ∨
    (∃ rest, s.port = .blockReset :: rest ∧ t = ({ s with port := rest } : State).blockReset) ∨
    (∃ rest, s.port = .powerOn :: rest ∧ t = ({ s with port := rest } : State).powerOn) ∨
    (∃ p rest i, s.port = .present p :: rest ∧ exec i { s with port := rest } = .next t) := by
  unfold step takeInput at h
  split at h
  · cases h; exact .inl ⟨‹_›, rfl⟩
  · rename_i inp rest hp
    cases inp with
    | present p =>
      simp only [runInput, runPacket] at h
      split at h
      · exact .inr (.inr (.inr ⟨p, rest, _, hp, h⟩))
      · cases h
    | overlap p => cases h
    | blockReset => cases h; exact .inr (.inl ⟨rest, hp, rfl⟩)
    | powerOn => cases h; exact .inr (.inr (.inl ⟨rest, hp, rfl⟩))

/-- An invariant that does not read the port and that block resets, power-ons, chip frames and requests keep is kept by
every step. -/
theorem step_keeps {Inv : State → Prop} (hport : ∀ s p, Inv s → Inv { s with port := p })
    (hreset : ∀ s, Inv s → Inv s.blockReset) (hpower : ∀ s, Inv s → Inv s.powerOn)
    (hchip : ∀ s c, Inv s → Inv { s with chip := c })
    (hreq : ∀ i s t, Inv s → RequestEnd i s t → Inv t) {s t : State} (hs : Inv s) (h : step s = .next t) : Inv t := by
  rcases step_cases h with ⟨-, rfl⟩ | ⟨rest, -, rfl⟩ | ⟨rest, -, rfl⟩ | ⟨p, rest, i, -, he⟩
  · exact hs
  · exact hreset _ (hport _ _ hs)
  · exact hpower _ (hport _ _ hs)
  · cases hi : i.isRequest with
    | true => exact hreq i _ t (hport _ _ hs) (exec_request hi he)
    | false =>
      obtain ⟨f, c, -, -, rfl⟩ := exec_chipFrame hi he
      exact hchip _ c (hport _ _ hs)

end Sys2Proof.Machine
end

