-- ==== Sys2Proof/Laws/Endings.lean ====
section
/-! SUPPORT. What an operation that returned Ok has done, said once, and the frames its trace is made of. -/

namespace Sys2Proof.Machine

theorem dispCtrl_unbound {b en s} (h : s.tp ≠ .bound) : dispCtrl b en s = .faulted .transportUnbound := by
  have : s.tp = .unbound := by cases hh : s.tp <;> simp_all
  simp [dispCtrl, sendFrame, frameCalls, txBegin, txCall, this]

theorem scanRead_unbound {s} (h : s.tp ≠ .bound) : scanRead s = .faulted .transportUnbound := by
  have : s.tp = .unbound := by cases hh : s.tp <;> simp_all
  simp [scanRead, sendFrame, frameCalls, txBegin, txCall, this]

theorem writeRegs_unbound {a d s} (h : s.tp ≠ .bound) : writeRegs a d s = .faulted .transportUnbound := by
  have : s.tp = .unbound := by cases hh : s.tp <;> simp_all
  simp [writeRegs, sendFrame, frameCalls, txBegin, txCall, this]

/-- A sequence that went through went through in both parts. -/
theorem bind_eq_done {α β} {r : Run α} {k : α → State → Run β} {b u} (h : r.bind k = .done b u) :
   ∃ a v, r = .done a v ∧ k a v = .done b u := by
  cases r with
  | done a v => exact ⟨a, v, rfl, h⟩
  | failed => cases h
  | faulted => cases h
  | refused => cases h

/-- A display-control frame went through: every call was answered. -/
theorem dispCtrl_ok {b en s u a} (h : dispCtrl b en s = .done a u) : s.tp = .bound ∧ s.bus.serves 3 = true := by
  by_cases htp : s.tp = .bound
  · refine ⟨htp, ?_⟩
    rcases serves_or_failsAt 3 s.bus with hs | ⟨k, hk, hf⟩
    · exact hs
    · rw [dispCtrl_failsAt htp hk hf] at h; cases h
  · rw [dispCtrl_unbound htp] at h; cases h

theorem Exchanges.keeps {α} {r : Run α} {s t : State} {a} (h : Exchanges r s) (hr : r = .done a t) :
    t.bus.keepsBracket = s.bus.keepsBracket := (h.1 a t hr).keeps

/-- A key scan went through: the bracket was kept and every call was answered. -/
theorem scanRead_ok {s u a} (h : scanRead s = .done a u) : s.tp = .bound ∧ s.bus.keepsBracket = true ∧
    s.bus.serves 7 = true := by
  by_cases htp : s.tp = .bound
  · have hk : s.bus.keepsBracket = true := by
      by_contra hk
      simp only [Bool.not_eq_true] at hk
      unfold scanRead sendFrame at h
      obtain ⟨ans, v, h1, -⟩ := bind_eq_done h
      split at h1
      · rename_i hx
        unfold frameCalls at hx
        obtain ⟨b1, s1, e1, hx⟩ := bind_eq_done hx
        obtain ⟨b2, s2, e2, hx⟩ := bind_eq_done hx
        obtain ⟨b3, s3, e3, hx⟩ := bind_eq_done hx
        have k1 := Exchanges.keeps (txCall_exchanges _ _) e1
        have k2 := Exchanges.keeps (writeBytes_exchanges _ _) e2
        unfold turnAround at e3
        rw [if_neg (by simp [k2, k1, hk, Frame.reads, scanBytes])] at e3
        cases e3
      · cases h1
      · cases h1
      · cases h1
    refine ⟨htp, hk, ?_⟩
    rcases serves_or_failsAt 7 s.bus with hs | ⟨k, hk', hf⟩
    · exact hs
    · rw [scanRead_failsAt htp hk hk' hf] at h; cases h
  · rw [scanRead_unbound htp] at h; cases h

/-- An update of digits went through: every call it made was answered. -/
theorem writeDigits_ok {st ps s u a} (h : writeDigits st ps s = .done a u) : s.wiring ≠ none ∧
    s.bus.serves (digitsCalls st ps s) = true ∧
   (s.tp = .bound ∨ (s.wiring = some .commonCathode ∧ cathodeCount st ps.length = 0)) := by
  rcases wiring_cases s with hw | hw | hw
  · simp [writeDigits, hw] at h
  · by_cases hm : cathodeCount st ps.length = 0
    · simp [hw, digitsCalls, hm, Transport.serves]
    · have htp : s.tp = .bound := by
        by_contra htp
        simp only [writeDigits, hw, cathodeWrite, hm, if_false, writeRegs_unbound htp] at h
        cases h
      refine ⟨by simp [hw], ?_, .inl htp⟩
      rcases serves_or_failsAt (digitsCalls st ps s) s.bus with hs | ⟨k, hk, hf⟩
      · exact hs
      · have h1 := writeDigits_failsAt htp hk hf
        rw [h1] at h; cases h
  · have htp : s.tp = .bound := by
      by_contra htp
      simp only [writeDigits, hw, anodeWrite, flush] at h
      rw [writeRegs_unbound (s := { s with sh := updateDigits st ps s.sh, wiring := some .commonAnode }) htp] at h
      cases h
    refine ⟨by simp [hw], ?_, .inl htp⟩
    rcases serves_or_failsAt (digitsCalls st ps s) s.bus with hs | ⟨k, hk, hf⟩
    · exact hs
    · have h1 := writeDigits_failsAt htp hk hf
      rw [h1] at h; cases h

/-- How an admitted request that returns Ok ends. -/
inductive OkEnd (i : Instr) (s : State) : State → Prop where
  | released (h : i = .shutdown) : OkEnd i s (shutdownBody s)
  | disp (b en) (h : i = .configureDisplay b en) (u) (e : u = (({ s.exchanged
        ((Frame.disp (brightnessField b) en).events s.cfg.layout []) with
      chip := { s.chip with bright := brightnessField b, dispOn := en } }).respond .ok none)) : OkEnd i s u
  | scan (h : i = .scanKeys) (reg) (hl : reg.length = 4) (m) (u) (e :
      u = ({ s.exchanged (Frame.scan.events s.cfg.layout reg) with chip := { s.chip with amode := .unknown } }).respond .ok m) : OkEnd i s u
  | anode (st ps) (h : digitsOf s.cfg.segLut i = some (st, ps)) (hw : s.wiring = some .commonAnode) :
      OkEnd i s (anodeResult st ps s)
  | cathode (st ps) (h : digitsOf s.cfg.segLut i = some (st, ps)) (hw : s.wiring = some .commonCathode) :
      OkEnd i s (cathodeResult st ps s)

theorem plain_eq_ok {r : Run Unit} {t m} (h : plain r = .next t) (hr : t.reply = some ⟨.ok, m⟩) : ∃ u,
    r = .done () u ∧ t = u.respond .ok none := by
  cases r with
  | done a u => cases h; exact ⟨u, rfl, rfl⟩
  | failed u => cases h; simp [State.respond] at hr
  | faulted => cases h
  | refused => cases h

/-- An operation that returned Ok was admitted. -/
theorem admit_eq_ok {body : State → Host.Outcome State Fault Refusal} {s t m need} (h :
    ifAdmitted need body s = .next t) (hr : t.reply = some ⟨.ok, m⟩) : s.life = need ∧ body s = .next t := by
  by_cases hl : s.life = need
  · rw [admit_pos hl] at h; exact ⟨hl, h⟩
  · rw [admit_neg hl] at h; cases h; simp [State.respond] at hr

/-- Every Ok end of a request but `initDevice` is one of `OkEnd`. -/
theorem exec_eq_ok {i s t m} (hi : i.isRequest = true) (hne : ∀ w, i ≠ .initDevice w) (h : exec i s = .next t) (hr :
    t.reply = some ⟨.ok, m⟩) :
   s.life = .ready ∧ OkEnd i s t := by
  have hd : ∀ st ps, digitsOf s.cfg.segLut i = some (st, ps) → s.life = .ready ∧ OkEnd i s t := by
    intro st ps hdd
    rw [digitsOf_exec hdd] at h
    obtain ⟨hl, h⟩ := admit_eq_ok h hr
    refine ⟨hl, ?_⟩
    obtain ⟨u, h1, rfl⟩ := plain_eq_ok h hr
    obtain ⟨w1, w2, w3⟩ := writeDigits_ok h1
    rcases wiring_cases s with hw | hw | hw
    · exact absurd hw w1
    · have htp : s.tp = .bound ∨ cathodeCount st ps.length = 0 := by
        rcases w3 with h | h; exact .inl h; exact .inr h.2
      rcases htp with htp | hm
      · obtain ⟨v, k1, k2⟩ := cathodeWrite_serves htp hw w2
        rw [(writeDigits_cathode hw st ps).1, k1] at h1
        cases h1; rw [k2]; exact .cathode st ps hdd hw
      · simp only [writeDigits, hw, cathodeWrite, hm, if_true] at h1
        cases h1
        have : s.respond .ok none = cathodeResult st ps s := by simp [cathodeResult, hm]
        rw [this]; exact .cathode st ps hdd hw
    · have htp : s.tp = .bound := by
        rcases w3 with h | h
        · exact h
        · rw [hw] at h; simp at h
      rw [(writeDigits_anode hw st ps).2.2.1] at w2
      obtain ⟨v, k1, k2⟩ := anodeWrite_serves (start := st) (ps := ps) htp w2
      rw [(writeDigits_anode hw st ps).1, k1] at h1
      cases h1; rw [k2]; exact .anode st ps hdd hw
  cases i with
  | dataWriteAuto => simp [Instr.isRequest] at hi
  | dataReadKeys => simp [Instr.isRequest] at hi
  | dataWriteFixed => simp [Instr.isRequest] at hi
  | dataGeneric => simp [Instr.isRequest] at hi
  | addrSet => simp [Instr.isRequest] at hi
  | dispCtrl => simp [Instr.isRequest] at hi
  | class00 => simp [Instr.isRequest] at hi
  | reservedTag low ops => cases h
  | initDevice w => exact absurd rfl (hne w)
  | shutdown =>
    simp only [exec, execShutdown] at h
    obtain ⟨hl, h⟩ := admit_eq_ok h hr
    cases h; exact ⟨hl, .released rfl⟩
  | setDigit p x => exact hd _ _ rfl
  | setDigits p x => exact hd _ _ rfl
  | setDigitHex p v d => exact hd _ _ rfl
  | setDigitsHex p x => exact hd _ _ rfl
  | configureDisplay b en =>
    simp only [exec, execConfigureDisplay] at h
    obtain ⟨hl, h⟩ := admit_eq_ok h hr
    obtain ⟨u, h1, rfl⟩ := plain_eq_ok h hr
    obtain ⟨htp, hs⟩ := dispCtrl_ok h1
    rw [dispCtrl_serves htp hs] at h1; cases h1
    exact ⟨hl, .disp b en rfl _ rfl⟩
  | scanKeys =>
    simp only [exec, execScanKeys] at h
    obtain ⟨hl, h⟩ := admit_eq_ok h hr
    refine ⟨hl, ?_⟩
    cases hx : scanRead s with
    | failed v => rw [hx] at h; cases h; simp [State.respond] at hr
    | faulted => rw [hx] at h; cases h
    | refused => rw [hx] at h; cases h
    | done a v =>
      rw [hx] at h; cases h
      obtain ⟨htp, hk, hs⟩ := scanRead_ok hx
      rw [scanRead_serves htp hk hs] at hx; cases hx
      refine .scan rfl _ (answers_length (n := 4) ?_) _ _ rfl
      rw [show 7 = 2 + 5 by rfl, serves_add, Bool.and_eq_true] at hs
      exact serves_mono (by omega) hs.2

theorem framesFrom_wr (w bs : List Byte) (es) : framesFrom (some (w,
    0)) (bs.map .wr ++ es) = framesFrom (some (w ++ bs, 0)) es := by
  induction bs generalizing w with
  | nil => simp
  | cons b bs ih => simp [framesFrom, ih]

theorem framesFrom_rd (w bs : List Byte) (hw : w ≠ []) (r) (es) : framesFrom (some (w,
    r)) (bs.map .rd ++ es) = framesFrom (some (w, r + bs.length)) es := by
  induction bs generalizing r with
  | nil => simp
  | cons b bs ih => simp [framesFrom, ih, hw]; congr 3; omega

/-- The frames of a trace that starts with a complete frame. -/
theorem frames_cons (l : CmdLayout) (f : Frame) (as : List Byte) (es : List Event) :
   framesFrom none (f.events l as ++ es) = (framesFrom none es).map fun ps => .frame (f.bytes l) as.length :: ps := by
  have hne : f.bytes l ≠ [] := by cases f <;> simp [Frame.bytes]
  simp only [Frame.events, List.cons_append, framesFrom, List.append_assoc, framesFrom_wr, List.nil_append]
  rw [framesFrom_rd _ _ hne]
  simp [framesFrom, hne]

theorem traceFrames_writeTrace (l a d) : traceFrames (writeTrace l a d) = some [.frame [cmdWrite l] 0,
    .frame (addrInstr l a :: d) 0] := by
  have := frames_cons l .dcmd [] ((Frame.wdata a d).events l [])
  have h2 := frames_cons l (.wdata a d) [] []
  simp only [List.append_nil] at h2
  rw [traceFrames, writeTrace, this, h2]
  simp [framesFrom, Frame.bytes]

theorem traceFrames_disp (l b en) :
    traceFrames ((Frame.disp b en).events l []) = some [.frame [dispInstr l b.toNat en] 0] := by
  have h2 := frames_cons l (.disp b en) [] []
  simp only [List.append_nil] at h2
  rw [traceFrames, h2]; simp [framesFrom, Frame.bytes]

theorem traceFrames_scan (l reg) : traceFrames (Frame.scan.events l reg) = some [.frame [cmdRead l] reg.length] := by
  have h2 := frames_cons l .scan reg []
  simp only [List.append_nil] at h2
  rw [traceFrames, h2]; simp [framesFrom, Frame.bytes]

end Sys2Proof.Machine
end

