-- ==== Sys2Proof/Laws/PerInstr.lean ====
section
/-! SUPPORT. Each instruction's encoding, at the table's layout, matches its row of spec/opcode_table.json: the head of its
packet (the tag of a request, the first byte of a frame) under the row's mask is the row's match. -/

namespace Sys2Proof.Laws.TableRow

open Sys2Proof Sys2Proof.Machine

/-- The mask and the match of an instruction's row. -/
def row : Instr → Nat × Nat
  | .dataWriteAuto => (0xFF, 0x40)
  | .dataReadKeys => (0xFF, 0x42)
  | .dataWriteFixed => (0xFF, 0x44)
  | .dataGeneric _ _ _ => (0xF1, 0x40)
  | .addrSet _ _ => (0xF0, 0xC0)
  | .dispCtrl _ _ => (0xF0, 0x80)
  | .class00 _ => (0xC0, 0x00)
  | .initDevice _ => (0xF, 0x0)
  | .configureDisplay _ _ => (0xF, 0x1)
  | .setDigit _ _ => (0xF, 0x2)
  | .setDigits _ _ => (0xF, 0x3)
  | .setDigitHex _ _ _ => (0xF, 0x4)
  | .setDigitsHex _ _ => (0xF, 0x5)
  | .scanKeys => (0xF, 0x6)
  | .shutdown => (0xF, 0x7)
  | .reservedTag _ _ => (0x8, 0x8)

/-- The bits of a packet that the table gives its row. -/
def head : Packet → Nat
  | .request tag _ => tag.toNat
  | .frame [] _ => 0
  | .frame (b :: _) _ => b.toNat

/-- The head of the encoding is the row's match under the row's mask. -/
def Statement (i : Instr) : Prop := (head (encode CmdLayout.default i) &&& (row i).1) = (row i).2

theorem dataWriteAuto : Statement .dataWriteAuto := by unfold Statement; decide
theorem dataReadKeys : Statement .dataReadKeys := by unfold Statement; decide
theorem dataWriteFixed : Statement .dataWriteFixed := by unfold Statement; decide
theorem dataGeneric (rw am tm : Bool) : Statement (.dataGeneric rw am tm) := by unfold Statement; revert rw am tm; decide

theorem addrSet (a : BitVec 4) (data : List Byte) : Statement (.addrSet a data) := by
  have h : ∀ a : BitVec 4, (addrInstr CmdLayout.default a).toNat &&& 0xF0 = 0xC0 := by decide
  exact h a

theorem dispCtrl (b : BitVec 3) (en : Bool) : Statement (.dispCtrl b en) := by unfold Statement; revert b en; decide
theorem class00 (low : BitVec 6) : Statement (.class00 low) := by unfold Statement; revert low; decide
theorem initDevice (w : Wiring) : Statement (.initDevice w) := by simp [Statement, head, row, encode]
theorem configureDisplay (b : Nat) (en : Bool) : Statement (.configureDisplay b en) := by simp [Statement, head, row, encode]
theorem setDigit (p : Nat) (x : Byte) : Statement (.setDigit p x) := by simp [Statement, head, row, encode]
theorem setDigits (p : Nat) (xs : List Byte) : Statement (.setDigits p xs) := by simp [Statement, head, row, encode]
theorem setDigitHex (p : Nat) (v : BitVec 7) (d : Bool) : Statement (.setDigitHex p v d) := by simp [Statement, head, row, encode]
theorem setDigitsHex (p : Nat) (items : List (BitVec 7 × Bool)) : Statement (.setDigitsHex p items) := by
  simp [Statement, head, row, encode]
theorem scanKeys : Statement .scanKeys := by simp [Statement, head, row, encode]
theorem shutdown : Statement .shutdown := by simp [Statement, head, row, encode]

theorem reservedTag (low : BitVec 3) (ops : List Nat) : Statement (.reservedTag low ops) := by
  have h : ∀ low : BitVec 3, (8#4 ||| low.setWidth 4).toNat &&& 0x8 = 0x8 := by decide
  exact h low

end Sys2Proof.Laws.TableRow
end

