-- ==== Sys2Proof/Laws/Shadow.lean ====
section
/-! SUPPORT. The bits of the transposition and of the builders, said once. -/

namespace Sys2Proof.Machine

/-- A written bit, and the others kept (R11). -/
theorem writeBit_getLsbD (b : Byte) (i k : Nat) (x : Bool) (hi : i < 8) (hk : k < 8) :
    (writeBit b i x).getLsbD k = if k = i then x else b.getLsbD k := by
  simp only [writeBit, BitVec.getLsbD_or, BitVec.getLsbD_and, BitVec.getLsbD_not, BitVec.getLsbD_shiftLeft,
    bitField_getLsbD i k x hi, BitVec.getLsbD_one]
  by_cases h : k = i
  · subst h; simp [hk]
  · have : ¬(i ≤ k ∧ k - i = 0) := by omega
    by_cases hlt : k < i
    · simp [h, hlt, hk]
    · have : k - i ≠ 0 := by omega
      simp [h, hlt, hk, this]

theorem registerIndex_inj {s s' : Fin 8} {g g' : Fin 2} :
    registerIndex s g = registerIndex s' g' ↔ s = s' ∧ g = g' := by
  constructor
  · intro h
    have := congrArg Fin.val h
    simp only [registerIndex] at this
    constructor <;> ext <;> omega
  · rintro ⟨rfl, rfl⟩; rfl

/-- Every register index is one of a segment and a group. -/
theorem registerIndex_surj (r : Fin 16) : ∃ s g, registerIndex s g = r :=
  ⟨⟨r.val / 2, by omega⟩, ⟨r.val % 2, by omega⟩, by ext; simp only [registerIndex]; omega⟩

theorem shadowSetBit_getLsbD (sh : Vector Byte 16) (r r' : Fin 16) (b k : Fin 8) (x : Bool) :
    ((shadowSetBit sh r b x)[r']).getLsbD k.val = if r' = r ∧ k = b then x else (sh[r']).getLsbD k.val := by
  unfold shadowSetBit
  by_cases hr : r' = r
  · subst hr
    simp only [Fin.getElem_fin, Vector.getElem_set_self, true_and]
    rw [writeBit_getLsbD _ _ _ _ b.isLt k.isLt]
    simp [Fin.ext_iff]
  · have : r.val ≠ r'.val := fun h => hr (Fin.ext h.symm)
    simp [this, hr]

/-- Bits written along a list of segments. -/
theorem foldl_shadowSetBit (ss : List (Fin 8)) (hnd : ss.Nodup) (g : Fin 2) (off : Fin 8) (p : Byte)
    (sh : Vector Byte 16) (s : Fin 8) (g' : Fin 2) (k : Fin 8) :
    ((ss.foldl (fun acc s => shadowSetBit acc (registerIndex s g) off (p.getLsbD s.val)) sh)[registerIndex s g']).getLsbD
        k.val =
      if s ∈ ss ∧ g' = g ∧ k = off then p.getLsbD s.val else (sh[registerIndex s g']).getLsbD k.val := by
  induction ss generalizing sh with
  | nil => simp
  | cons a ss ih =>
    rw [List.foldl_cons, ih (List.nodup_cons.mp hnd).2, shadowSetBit_getLsbD]
    simp only [registerIndex_inj]
    have ha := (List.nodup_cons.mp hnd).1
    by_cases hs : s = a
    · subst hs
      simp [ha]
    · simp [hs]

theorem segmentIndices_nodup : segmentIndices.Nodup := by decide
theorem mem_segmentIndices (s : Fin 8) : s ∈ segmentIndices := by revert s; decide

/-- The bits of the shadow after one digit (R142). -/
theorem transposeDigit_getLsbD {p : Nat} {g : Fin 2} {off : Fin 8} (h : anodeLocate p = some (g, off)) (x : Byte)
    (sh : Vector Byte 16) (s : Fin 8) (g' : Fin 2) (k : Fin 8) :
    ((transposeDigit p x sh)[registerIndex s g']).getLsbD k.val =
      if g' = g ∧ k = off then x.getLsbD s.val else (sh[registerIndex s g']).getLsbD k.val := by
  unfold transposeDigit
  rw [h]
  simp only
  rw [foldl_shadowSetBit _ segmentIndices_nodup]
  simp [mem_segmentIndices]

theorem transposeDigit_none {p : Nat} (h : anodeLocate p = none) (x : Byte) (sh : Vector Byte 16) :
    transposeDigit p x sh = sh := by
  unfold transposeDigit; rw [h]

/-- Two shadows with the same bits are the same. -/
theorem shadow_ext {v w : Vector Byte 16}
    (h : ∀ (s : Fin 8) (g : Fin 2) (k : Fin 8),
      (v[registerIndex s g]).getLsbD k.val = (w[registerIndex s g]).getLsbD k.val) : v = w := by
  ext i hi k hk
  obtain ⟨s, g, hr⟩ := registerIndex_surj ⟨i, hi⟩
  have := h s g ⟨k, hk⟩
  simp only [hr] at this
  simpa [BitVec.getLsbD_eq_getElem hk] using this

/-- The group and offset of a position 0-9 (R141). -/
theorem anodeLocate_cases (p : Nat) :
    (p ≤ 7 ∧ ∃ off : Fin 8, anodeLocate p = some (0, off) ∧ off.val = p) ∨
    (8 ≤ p ∧ p ≤ 9 ∧ ∃ off : Fin 8, anodeLocate p = some (1, off) ∧ off.val = p - 8) ∨
    (10 ≤ p ∧ anodeLocate p = none) := by
  unfold anodeLocate
  by_cases h : p ≤ 7
  · rw [if_pos h]; exact .inl ⟨h, _, rfl, by simp [Fin.ofNat]; omega⟩
  · rw [if_neg h]
    by_cases h9 : p ≤ 9
    · rw [if_pos h9]; exact .inr (.inl ⟨by omega, h9, _, rfl, by simp [Fin.ofNat]; omega⟩)
    · rw [if_neg h9]; exact .inr (.inr ⟨by omega, rfl⟩)

/-- A position and its cell determine each other. -/
theorem anodeLocate_inj {p q : Nat} {g : Fin 2} {o : Fin 8} (hp : anodeLocate p = some (g, o))
    (hq : anodeLocate q = some (g, o)) : p = q := by
  rcases anodeLocate_cases p with ⟨h1, o1, e1, v1⟩ | ⟨h1, h1', o1, e1, v1⟩ | ⟨h1, e1⟩ <;>
  rcases anodeLocate_cases q with ⟨h2, o2, e2, v2⟩ | ⟨h2, h2', o2, e2, v2⟩ | ⟨h2, e2⟩ <;>
  simp_all <;> omega

theorem foldl_or_bitField (f : Fin 8 → Bool) (ss : List (Fin 8)) (acc : Byte) (k : Fin 8) :
    (ss.foldl (fun acc s => acc ||| bitField s.val (f s)) acc).getLsbD k.val =
      (acc.getLsbD k.val || (decide (k ∈ ss) && f k)) := by
  induction ss generalizing acc with
  | nil => simp
  | cons a ss ih =>
    rw [List.foldl_cons, ih, BitVec.getLsbD_or, bitField_getLsbD _ _ _ a.isLt]
    by_cases h : k = a
    · subst h; simp; cases f k <;> simp
    · have : k.val ≠ a.val := fun e => h (Fin.ext e)
      simp [h, this]

/-- The bits of a digit read back (R148). -/
theorem readback_getLsbD {p : Nat} {g : Fin 2} {o : Fin 8} (h : anodeLocate p = some (g, o)) (sh : Vector Byte 16) :
    ∃ b, readback p sh = some b ∧ ∀ s : Fin 8, b.getLsbD s.val = (sh[registerIndex s g]).getLsbD o.val := by
  unfold readback
  rw [h]
  refine ⟨_, rfl, fun s => ?_⟩
  rw [foldl_or_bitField]
  simp [mem_segmentIndices]

theorem byte_ext {a b : Byte} (h : ∀ k : Fin 8, a.getLsbD k.val = b.getLsbD k.val) : a = b := by
  ext k hk
  simpa [BitVec.getLsbD_eq_getElem hk] using h ⟨k, hk⟩

/-- Read-backs agree where the cells do. -/
theorem readback_congr {p : Nat} {v w : Vector Byte 16}
    (h : ∀ g o, anodeLocate p = some (g, o) → ∀ s : Fin 8,
      (v[registerIndex s g]).getLsbD o.val = (w[registerIndex s g]).getLsbD o.val) : readback p v = readback p w := by
  cases hp : anodeLocate p with
  | none => simp [readback, hp]
  | some go =>
    obtain ⟨g, o⟩ := go
    obtain ⟨a, ha, ha'⟩ := readback_getLsbD hp v
    obtain ⟨b, hb, hb'⟩ := readback_getLsbD hp w
    rw [ha, hb]
    congr 1
    apply byte_ext
    intro k
    rw [ha', hb', h g o hp k]

theorem readback_transpose_self {p : Nat} {g : Fin 2} {o : Fin 8} (h : anodeLocate p = some (g, o)) (x : Byte)
    (sh : Vector Byte 16) : readback p (transposeDigit p x sh) = some x := by
  obtain ⟨a, ha, ha'⟩ := readback_getLsbD h (transposeDigit p x sh)
  rw [ha]
  congr 1
  apply byte_ext
  intro k
  rw [ha', transposeDigit_getLsbD h]
  simp

theorem readback_transpose_ne {p q : Nat} (h : p ≠ q) (x : Byte) (sh : Vector Byte 16) :
    readback q (transposeDigit p x sh) = readback q sh := by
  cases hp : anodeLocate p with
  | none => rw [transposeDigit_none hp]
  | some go =>
    obtain ⟨g, o⟩ := go
    apply readback_congr
    intro g' o' hq s
    rw [transposeDigit_getLsbD hp]
    rw [if_neg]
    rintro ⟨rfl, rfl⟩
    exact h (anodeLocate_inj hp hq)

/-- Writing one digit twice, with another in between, is writing both. -/
theorem transposeDigit_comm {p q : Nat} (h : p ≠ q) (x y : Byte) (sh : Vector Byte 16) :
    transposeDigit p x (transposeDigit q y sh) = transposeDigit q y (transposeDigit p x sh) := by
  cases hp : anodeLocate p with
  | none => simp [transposeDigit_none hp]
  | some go =>
    cases hq : anodeLocate q with
    | none => simp [transposeDigit_none hq]
    | some go' =>
      obtain ⟨g, o⟩ := go
      obtain ⟨g', o'⟩ := go'
      apply shadow_ext
      intro s gg k
      simp only [transposeDigit_getLsbD hp, transposeDigit_getLsbD hq]
      by_cases h1 : gg = g ∧ k = o
      · by_cases h2 : gg = g' ∧ k = o'
        · exfalso
          obtain ⟨rfl, rfl⟩ := h1
          obtain ⟨rfl, rfl⟩ := h2
          exact h (anodeLocate_inj hp hq)
        · simp [h1]
          intro a b; exact absurd ⟨h1.1.trans a, h1.2.trans b⟩ h2
      · by_cases h2 : gg = g' ∧ k = o'
        · simp [h2]
          intro a b; exact absurd ⟨h2.1.trans a, h2.2.trans b⟩ h1
        · simp [h1, h2]

theorem transposeDigit_self (p : Nat) (x y : Byte) (sh : Vector Byte 16) :
    transposeDigit p x (transposeDigit p y sh) = transposeDigit p x sh := by
  cases hp : anodeLocate p with
  | none => simp [transposeDigit_none hp]
  | some go =>
    obtain ⟨g, o⟩ := go
    apply shadow_ext
    intro s gg k
    simp only [transposeDigit_getLsbD hp]
    split <;> simp_all

/-- A digit before an update can be written after it. -/
theorem updateDigits_transpose {p start : Nat} (h : p < start) (x : Byte) (ps : List Byte) (sh : Vector Byte 16) :
    updateDigits start ps (transposeDigit p x sh) = transposeDigit p x (updateDigits start ps sh) := by
  induction ps generalizing start sh with
  | nil => rfl
  | cons q ps ih =>
    simp only [updateDigits]
    rw [transposeDigit_comm (by omega), ih (by omega)]

/-- The same update twice is the update (R147). -/
theorem updateDigits_idem (start : Nat) (ps : List Byte) (sh : Vector Byte 16) :
    updateDigits start ps (updateDigits start ps sh) = updateDigits start ps sh := by
  induction ps generalizing start sh with
  | nil => rfl
  | cons p ps ih =>
    simp only [updateDigits]
    have e : updateDigits (start + 1) ps (transposeDigit start p sh) =
        transposeDigit start p (updateDigits (start + 1) ps sh) := updateDigits_transpose (Nat.lt_succ_self _) _ _ _
    rw [e, transposeDigit_self, updateDigits_transpose (Nat.lt_succ_self _), ih]

theorem readback_update_outside {q start : Nat} (ps : List Byte) (sh : Vector Byte 16)
    (h : q < start ∨ start + ps.length ≤ q) : readback q (updateDigits start ps sh) = readback q sh := by
  induction ps generalizing start sh with
  | nil => rfl
  | cons p ps ih =>
    simp only [updateDigits, List.length_cons] at *
    rw [ih _ (by omega), readback_transpose_ne (by omega)]

theorem readback_update_inside {start k : Nat} (ps : List Byte) (sh : Vector Byte 16) (h : k < ps.length)
    (h9 : start + k ≤ 9) : readback (start + k) (updateDigits start ps sh) = some ps[k] := by
  induction ps generalizing start sh k with
  | nil => simp at h
  | cons p ps ih =>
    cases k with
    | zero =>
      simp only [updateDigits, Nat.add_zero]
      rw [readback_update_outside _ _ (by omega)]
      rcases anodeLocate_cases start with ⟨-, o, e, -⟩ | ⟨-, -, o, e, -⟩ | ⟨h1, -⟩
      · rw [readback_transpose_self e]; rfl
      · rw [readback_transpose_self e]; rfl
      · omega
    | succ k =>
      simp only [updateDigits]
      have := ih (start := start + 1) (k := k) (transposeDigit start p sh) (by simpa using h) (by omega)
      rw [show start + 1 + k = start + (k + 1) by omega] at this
      rw [this]; rfl

theorem updateDigits_far {start : Nat} (h : 10 ≤ start) (ps : List Byte) (sh : Vector Byte 16) :
    updateDigits start ps sh = sh := by
  induction ps generalizing start sh with
  | nil => rfl
  | cons p ps ih =>
    simp only [updateDigits]
    rw [ih (by omega)]
    rcases anodeLocate_cases start with ⟨h1, -⟩ | ⟨-, h1, -⟩ | ⟨-, e⟩
    · omega
    · omega
    · exact transposeDigit_none e _ _

/-- No digit touches bits 7:2 of an odd byte (R24). -/
theorem updateDigits_odd (start : Nat) (ps : List Byte) (sh : Vector Byte 16) (s k : Fin 8) (hk : 2 ≤ k.val) :
    ((updateDigits start ps sh)[registerIndex s 1]).getLsbD k.val = (sh[registerIndex s 1]).getLsbD k.val := by
  induction ps generalizing start sh with
  | nil => rfl
  | cons p ps ih =>
    simp only [updateDigits]
    rw [ih]
    rcases anodeLocate_cases start with ⟨-, o, e, -⟩ | ⟨-, h1, o, e, v⟩ | ⟨-, e⟩
    · rw [transposeDigit_getLsbD e, if_neg (by simp)]
    · rw [transposeDigit_getLsbD e, if_neg]
      rintro ⟨-, rfl⟩
      omega
    · rw [transposeDigit_none e]

end Sys2Proof.Machine
end

