-- ==== Sys2Proof/Laws/Simulation.lean ====
section
/-! SUPPORT. A change of the state that no transport call notices passes through the calls of a frame. -/

namespace Sys2Proof.Machine

/-- A run with the state it ends in changed. -/
def Run.mapState {α : Type} (g : State → State) : Run α → Run α
  | .done a s => .done a (g s)
  | .failed s => .failed (g s)
  | .faulted f => .faulted f
  | .refused r => .refused r

theorem bind_mapState {α β : Type} (g : State → State) (r : Run α) (f f' : α → State → Run β)
    (h : ∀ a s, f' a (g s) = (f a s).mapState g) : (r.mapState g).bind f' = (r.bind f).mapState g := by
  cases r with
  | done a s => exact h a s
  | failed => rfl
  | faulted => rfl
  | refused => rfl

/-- What a change of the state must leave alone for the calls to pass through it. -/
structure CallSim (g : State → State) : Prop where
  cfg : ∀ s, (g s).cfg = s.cfg
  keeps : ∀ s, (g s).bus.keepsBracket = s.bus.keepsBracket
  call : ∀ mk s, txCall mk (g s) = (txCall mk s).mapState g

theorem CallSim.writeBytes {g : State → State} (hg : CallSim g) (bs : List Byte) (s : State) :
    Machine.writeBytes bs (g s) = (Machine.writeBytes bs s).mapState g := by
  induction bs generalizing s with
  | nil => rfl
  | cons b bs ih =>
    simp only [Machine.writeBytes, txWrite, hg.call]
    exact bind_mapState _ _ _ _ fun _ s => ih s

theorem CallSim.readBytes {g : State → State} (hg : CallSim g) (n : Nat) (s : State) :
    Machine.readBytes n (g s) = (Machine.readBytes n s).mapState g := by
  induction n generalizing s with
  | zero => rfl
  | succ n ih =>
    simp only [Machine.readBytes, txRead, hg.call]
    refine bind_mapState _ _ _ _ fun a s => ?_
    rw [ih]
    exact bind_mapState _ _ _ _ fun a s => rfl

/-- The calls of a frame pass through. -/
theorem CallSim.frameCalls {g : State → State} (hg : CallSim g) (f : Frame) (s : State) :
    Machine.frameCalls f (g s) = (Machine.frameCalls f s).mapState g := by
  unfold Machine.frameCalls txBegin txEnd
  rw [hg.call]
  refine bind_mapState _ _ _ _ fun a s => ?_
  rw [hg.cfg, hg.writeBytes]
  refine bind_mapState _ _ _ _ fun a s => ?_
  have ht : turnAround f.reads (g s) = (turnAround f.reads s).mapState g := by
    unfold turnAround
    rw [hg.keeps]
    split <;> rfl
  rw [ht]
  refine bind_mapState _ _ _ _ fun a s => ?_
  rw [hg.readBytes]
  refine bind_mapState _ _ _ _ fun a s => ?_
  rw [hg.call]
  exact bind_mapState _ _ _ _ fun a s => rfl

/-- Another realisation of the transport is such a change (R187). -/
theorem callSim_kind (k : TransportKind) : CallSim fun s => { s with bus := { s.bus with kind := k } } where
  cfg _ := rfl
  keeps _ := rfl
  call mk s := by
    cases htp : s.tp with
    | unbound => simp [txCall, htp, Run.mapState]
    | bound =>
      unfold txCall
      simp only [htp]
      unfold Transport.answer
      cases hs : s.bus.script with
      | cons r rs => cases r <;> simp [Run.mapState, Transport.record]
      | nil => cases hd : Config.drawReply s.bus.drawn <;> simp [Run.mapState, Transport.record]

/-- Another observer is such a change (R54). -/
theorem callSim_observer (c : Chip) (n : Nat) : CallSim fun s => s.withoutObserver c n where
  cfg _ := rfl
  keeps _ := rfl
  call mk s := by
    cases htp : s.tp with
    | unbound => simp [txCall, State.withoutObserver, htp, Run.mapState]
    | bound =>
      unfold txCall
      simp only [State.withoutObserver, htp]
      rcases s.bus.answer with ⟨r, b⟩
      cases r <;> rfl

end Sys2Proof.Machine
end

