-- ==== Sys2Proof/Machine/Asm.lean ====
section
/-! DEFINITION. The notation of spec/30_encoding.md R84 for the request stream, one operation a line, read into packets of
the request port; and the notation of spec/44_transport_interface.md R182 for a trace. Text is a list of characters, so
that the kernel evaluates it. -/

namespace Sys2Proof.Machine

/-! ### Reading a line (R84) -/

/-- The tokens of a line. -/
inductive Token where
  /-- a name or a number -/
  | word (cs : List Char)
  /-- a quoted character, standing for its ASCII code -/
  | quoted (c : Char)
  | comma
  | openList
  | closeList
  /-- the trailing point of a hex item -/
  | point
  deriving DecidableEq, Repr

/-- A character of a name or a number. -/
def isWordChar (c : Char) : Bool :=
  (decide (48 ≤ c.toNat) && decide (c.toNat ≤ 57)) || (decide (65 ≤ c.toNat) && decide (c.toNat ≤ 90))
    || (decide (97 ≤ c.toNat) && decide (c.toNat ≤ 122))

/-- The word read so far, if any, before the tokens that follow it. -/
def closeWord (w : List Char) (ts : List Token) : List Token := if w.isEmpty then ts else .word w :: ts

/-- The tokens of a line, up to its comment; `w` is the word being read. None where a character has no place. -/
def lexLine (w : List Char) : List Char → Option (List Token)
  | [] => some (closeWord w [])
  | '\'' :: c :: '\'' :: cs => (lexLine [] cs).map fun ts => closeWord w (.quoted c :: ts)
  | c :: cs =>
    if c = ';' then some (closeWord w [])
    else if isWordChar c then lexLine (w ++ [c]) cs
    else if c = ' ' ∨ c = '\t' then (lexLine [] cs).map (closeWord w)
    else if c = ',' then (lexLine [] cs).map fun ts => closeWord w (.comma :: ts)
    else if c = '[' then (lexLine [] cs).map fun ts => closeWord w (.openList :: ts)
    else if c = ']' then (lexLine [] cs).map fun ts => closeWord w (.closeList :: ts)
    else if c = '.' then (lexLine [] cs).map fun ts => closeWord w (.point :: ts)
    else none

/-- A decimal digit. -/
def decimalDigit (c : Char) : Option Nat :=
  if 48 ≤ c.toNat ∧ c.toNat ≤ 57 then some (c.toNat - 48) else none

/-- A hexadecimal digit, of either case. -/
def hexDigit (c : Char) : Option Nat :=
  if 48 ≤ c.toNat ∧ c.toNat ≤ 57 then some (c.toNat - 48)
  else if 65 ≤ c.toNat ∧ c.toNat ≤ 70 then some (c.toNat - 55)
  else if 97 ≤ c.toNat ∧ c.toNat ≤ 102 then some (c.toNat - 87)
  else none

/-- Digits in a base, the most significant first. -/
def readDigits (digit : Char → Option Nat) (base : Nat) (acc : Nat) : List Char → Option Nat
  | [] => some acc
  | c :: cs =>
    match digit c with
    | some d => readDigits digit base (acc * base + d) cs
    | none => none

/-- A number, decimal or `0x` hexadecimal. -/
def readNumber (w : List Char) : Option Nat :=
  match w with
  | [] => none
  | ['0', 'x'] => none
  | '0' :: 'x' :: cs => readDigits hexDigit 16 0 cs
  | c :: cs => readDigits decimalDigit 10 0 (c :: cs)

/-- A hex value: a number, or a quoted character for its ASCII code. -/
def readValue : Token → Option Nat
  | .word w => readNumber w
  | .quoted c => some c.toNat
  | .comma => none
  | .openList => none
  | .closeList => none
  | .point => none

/-- The rest of a list of numbers after its first one. -/
def readMore : List Token → Option (List Nat)
  | [.closeList] => some []
  | .comma :: .word w :: ts =>
    match readNumber w, readMore ts with
    | some n, some ns => some (n :: ns)
    | _, _ => none
  | _ => none

/-- A list of numbers, after its opening bracket (R84). DESIGN CHOICE (notes/assumptions/24.md): the repeat form
`[0x3F x 16]` of 95_test_vectors.md P4 is not in R84's syntax and is not read. -/
def readList : List Token → Option (List Nat)
  | [.closeList] => some []
  | .word w :: ts =>
    match readNumber w, readMore ts with
    | some n, some ns => some (n :: ns)
    | _, _ => none
  | _ => none

/-- The rest of a list of hex items after its first one, each item as its value and its point. -/
def readMoreItems : List Token → Option (List Nat)
  | [.closeList] => some []
  | .comma :: v :: .point :: ts =>
    match readValue v, readMoreItems ts with
    | some n, some ns => some (n :: 1 :: ns)
    | _, _ => none
  | .comma :: v :: ts =>
    match readValue v, readMoreItems ts with
    | some n, some ns => some (n :: 0 :: ns)
    | _, _ => none
  | _ => none

/-- A list of hex items, after its opening bracket. -/
def readItemList : List Token → Option (List Nat)
  | [.closeList] => some []
  | v :: .point :: ts =>
    match readValue v, readMoreItems ts with
    | some n, some ns => some (n :: 1 :: ns)
    | _, _ => none
  | v :: ts =>
    match readValue v, readMoreItems ts with
    | some n, some ns => some (n :: 0 :: ns)
    | _, _ => none
  | [] => none

/-- The operation names of R84, each with its tag; 8 stands for the pseudo-form `blank`. -/
def operationOf (w : List Char) : Option Nat :=
  if w = ['i', 'n', 'i', 't', 'i', 'a', 'l', 'i', 'z', 'e'] then some 0
  else if w = ['c', 'o', 'n', 'f', 'i', 'g', 'u', 'r', 'e', 'D', 'i', 's', 'p', 'l', 'a', 'y'] then some 1
  else if w = ['s', 'e', 't', 'D', 'i', 'g', 'i', 't'] then some 2
  else if w = ['s', 'e', 't', 'D', 'i', 'g', 'i', 't', 's'] then some 3
  else if w = ['s', 'e', 't', 'D', 'i', 'g', 'i', 't', 'H', 'e', 'x'] then some 4
  else if w = ['s', 'e', 't', 'D', 'i', 'g', 'i', 't', 's', 'H', 'e', 'x'] then some 5
  else if w = ['s', 'c', 'a', 'n', 'K', 'e', 'y', 's'] then some 6
  else if w = ['s', 'h', 'u', 't', 'd', 'o', 'w', 'n'] then some 7
  else if w = ['b', 'l', 'a', 'n', 'k'] then some 8
  else none

/-- The wiring names of R84. -/
def wiringOf (w : List Char) : Option Nat :=
  if w = ['C', 'C'] then some 0 else if w = ['C', 'A'] then some 1 else none

/-- The two settings of the display enable. -/
def enableOf (w : List Char) : Option Nat :=
  if w = ['o', 'f', 'f'] then some 0 else if w = ['o', 'n'] then some 1 else none

/-- A request with the operands read. -/
def requestOf (tag : BitVec 4) (operands : Option (List Nat)) : Option Packet := operands.map (.request tag)

/-- Two operands. -/
def pairOf (a b : Option Nat) : Option (List Nat) :=
  match a, b with
  | some x, some y => some [x, y]
  | _, _ => none

/-- An operation's packet from its operation number and the tokens of its operands. -/
def operandsOf (op : Nat) (ts : List Token) : Option Packet :=
  match op, ts with
  | 0, [.word w] => requestOf 0 ((wiringOf w).map fun n => [n])
  | 1, [.word b, .comma, .word e] => requestOf 1 (pairOf (readNumber b) (enableOf e))
  | 2, [.word p, .comma, .word x] => requestOf 2 (pairOf (readNumber p) (readNumber x))
  | 3, .word s :: .comma :: .openList :: rest =>
    match readNumber s, readList rest with
    | some n, some ns => some (.request 3 (n :: ns))
    | _, _ => none
  | 4, [.word p, .comma, v] => requestOf 4 ((pairOf (readNumber p) (readValue v)).map fun ns => ns ++ [0])
  | 4, [.word p, .comma, v, .comma, .word d] =>
    if d = ['d', 'p'] then requestOf 4 ((pairOf (readNumber p) (readValue v)).map fun ns => ns ++ [1]) else none
  | 5, .word s :: .comma :: .openList :: rest =>
    match readNumber s, readItemList rest with
    | some n, some ns => some (.request 5 (n :: ns))
    | _, _ => none
  | 6, [] => some (.request 6 [])
  | 7, [] => some (.request 7 [])
  | 8, [.word p] => requestOf 2 ((readNumber p).map fun n => [n, 0])
  | _, _ => none

/-- A line: nothing, or the packet it presents. The outer `none` is a line that R84's syntax does not have. -/
def readLine (cs : List Char) : Option (Option Packet) :=
  match lexLine [] cs with
  | none => none
  | some [] => some none
  | some (.word w :: ts) =>
    match operationOf w with
    | some op => (operandsOf op ts).map some
    | none => none
  | some (_ :: _) => none

/-- The inputs a list of lines presents, in order. -/
def readProgram : List (List Char) → Option (List Input)
  | [] => some []
  | line :: lines =>
    match readLine line, readProgram lines with
    | some (some p), some inputs => some (.present p :: inputs)
    | some none, some inputs => some inputs
    | _, _ => none

/-! ### Writing a trace (R182) -/

/-- A hexadecimal digit, in capitals as the vectors write it. -/
def hexChar (n : BitVec 4) : Char := Char.ofNat (if n.toNat ≤ 9 then 48 + n.toNat else 55 + n.toNat)

/-- A byte as two digits. -/
def hexByte (b : Byte) : List Char := [hexChar (b.extractLsb' 4 4), hexChar (b.extractLsb' 0 4)]

/-- One event as R182 writes it. -/
def Event.text : Event → List Char
  | .bracketBegin => ['B']
  | .bracketEnd => ['E']
  | .wr b => 'W' :: hexByte b
  | .rd b => 'R' :: hexByte b

/-- A trace, its events apart. -/
def traceText : List Event → List Char
  | [] => []
  | [e] => e.text
  | e :: es => e.text ++ ' ' :: traceText es

end Sys2Proof.Machine
end

