-- ==== Sys2Proof/Tests/Slice0.lean ====
section
/-! SUPPORT. Tests. Expected results are the vectors of spec/95_test_vectors.md (named in the comments) or are written out
from the rule named; then, for each statement with hypotheses, a witness that meets them. -/

namespace Sys2Proof.Tests

open Sys2Proof Sys2Proof.Machine

/-! ### Helpers -/

/-- `n` calls answered with the byte 0. -/
def oks (n : Nat) : List Reply := List.replicate n (.ok 0)

/-- The recorder with a script (R188). -/
def recorder (script : List Reply) : Transport := { Transport.fresh with script := script }

/-- A Ready block with a zero shadow and a scripted recorder. -/
def readyAs (w : Wiring) (script : List Reply) : State :=
  { State.reset with life := .ready, wiring := some w, tp := .bound, bus := recorder script }

/-- A Released block. -/
def releasedAs (w : Wiring) : State := { State.reset with life := .released, wiring := some w }

/-- A state whose observer holds auto-increment write mode, nothing else known. -/
def writing : State := { State.reset with chip := { Chip.drawn 0 with amode := .writeAuto } }

/-- A Ready block whose transport holds an open bracket, its chip in auto-increment write mode. -/
def interrupted : State :=
  { readyAs .commonCathode [] with
    chip := { Chip.drawn 0 with amode := .writeAuto },
    bus := { recorder [] with bracket := true, log := [.bracketBegin] } }

/-- A field of the next state. -/
def after {α : Type} (f : State → α) : Host.Outcome State Fault Refusal → Option α
  | .next s => some (f s)
  | .fault _ => none
  | .refused _ => none

/-- The reply, as status and mask. -/
def replied (s : State) : Option (Status × Option KeyMask) := s.reply.map fun r => (r.status, r.mask)

/-- The reason of a refusal. -/
def refusal : Host.Outcome State Fault Refusal → Option Refusal
  | .next _ => none
  | .fault _ => none
  | .refused r => some r

/-- Bytes written, as events. -/
def wrs (bs : List Byte) : List Event := bs.map .wr

/-- A whole flush (R144). -/
def flushOf (image : List Byte) : List Event :=
  [.bracketBegin, .wr 0x40, .bracketEnd, .bracketBegin, .wr 0xC0] ++ wrs image ++ [.bracketEnd]

/-- The request of a line of text. -/
def lineOf (text : String) : Option (Option Packet) := readLine text.toList

/-! ### WellFormed -/

theorem test_wf_addr_empty : (Instr.addrSet 3 []).wf CmdLayout.default = false := by decide
theorem test_wf_addr_past : (Instr.addrSet 15 [1, 2]).wf CmdLayout.default = false := by decide
theorem test_wf_addr_full : (Instr.addrSet 0 (List.replicate 16 0)).wf CmdLayout.default = true := by decide
theorem test_wf_generic_write : (Instr.dataGeneric false false false).wf CmdLayout.default = false := by decide
theorem test_wf_generic_fixed : (Instr.dataGeneric false true false).wf CmdLayout.default = false := by decide
theorem test_wf_generic_read : (Instr.dataGeneric true false false).wf CmdLayout.default = false := by decide
theorem test_wf_generic_test : (Instr.dataGeneric false false true).wf CmdLayout.default = true := by decide

/-- The default configuration meets R71 and R120. -/
theorem test_config_ok : Config.default.ok = true := by decide

/-- R71's constraints refuse two equal classes, two equal positions, and an enable among the brightness bits. -/
theorem test_layout_classes : (({ CmdLayout.default with clsAddr := 0b01 } : CmdLayout)).ok = false := by decide
theorem test_layout_positions : (({ CmdLayout.default with amBit := 1 } : CmdLayout)).ok = false := by decide
theorem test_layout_enable : (({ CmdLayout.default with dispOnBit := 2 } : CmdLayout)).ok = false := by decide

/-! ### Decoding, each word written out from its encoding (opcode_table.json, R72-R75, R82) -/

theorem test_decode_dataWriteAuto :
    decode CmdLayout.default (.frame [0b01000000] 0) = .ok .dataWriteAuto := by decide
theorem test_decode_dataReadKeys :
    decode CmdLayout.default (.frame [0b01000010] 4) = .ok .dataReadKeys := by decide
theorem test_decode_dataWriteFixed :
    decode CmdLayout.default (.frame [0b01000100] 0) = .ok .dataWriteFixed := by decide
/-- `0100tar0` with t = 1, a = 1, r = 0. -/
theorem test_decode_dataGeneric :
    decode CmdLayout.default (.frame [0b01001100] 0) = .ok (.dataGeneric false true true) := by decide
theorem test_decode_addrSet :
    decode CmdLayout.default (.frame [0b11001110, 0xAA, 0x55] 0) = .ok (.addrSet 14 [0xAA, 0x55]) := by decide
/-- `1000ebbb` with e = 0, b = 110. -/
theorem test_decode_dispCtrl :
    decode CmdLayout.default (.frame [0b10000110] 0) = .ok (.dispCtrl 6 false) := by decide
theorem test_decode_class00 :
    decode CmdLayout.default (.frame [0b00101101] 0) = .ok (.class00 0b101101) := by decide
theorem test_decode_initialize :
    decode CmdLayout.default (.request 0b0000 [1]) = .ok (.initDevice .commonAnode) := by decide
theorem test_decode_configureDisplay :
    decode CmdLayout.default (.request 0b0001 [9, 1]) = .ok (.configureDisplay 9 true) := by decide
theorem test_decode_setDigit :
    decode CmdLayout.default (.request 0b0010 [16, 0xFF]) = .ok (.setDigit 16 0xFF) := by decide
theorem test_decode_setDigits :
    decode CmdLayout.default (.request 0b0011 [8, 0, 255]) = .ok (.setDigits 8 [0, 255]) := by decide
theorem test_decode_setDigitHex :
    decode CmdLayout.default (.request 0b0100 [3, 0x41, 1]) = .ok (.setDigitHex 3 0x41 true) := by decide
theorem test_decode_setDigitsHex :
    decode CmdLayout.default (.request 0b0101 [14, 0x61, 0, 3, 1]) =
      .ok (.setDigitsHex 14 [(0x61, false), (3, true)]) := by decide
theorem test_decode_scanKeys : decode CmdLayout.default (.request 0b0110 []) = .ok .scanKeys := by decide
theorem test_decode_shutdown : decode CmdLayout.default (.request 0b0111 []) = .ok .shutdown := by decide
theorem test_decode_reservedTag :
    decode CmdLayout.default (.request 0b1001 [5]) = .ok (.reservedTag 1 [5]) := by decide

/-- Bits that no field names must be 0 (R71): 0x41, 0xD0 and 0x90 are no instruction. -/
theorem test_decode_unused :
    decode CmdLayout.default (.frame [0x41] 0) = .error .unusedBits ∧
    decode CmdLayout.default (.frame [0xD0, 1] 0) = .error .unusedBits ∧
    decode CmdLayout.default (.frame [0x90] 0) = .error .unusedBits := by decide
/-- A pattern of 256 and a bit of 2 lie outside their types (R82). -/
theorem test_decode_range :
    decode CmdLayout.default (.request 2 [0, 256]) = .error .operandRange ∧
    decode CmdLayout.default (.request 0 [2]) = .error .operandRange ∧
    decode CmdLayout.default (.request 4 [0, 128, 0]) = .error .operandRange := by decide
/-- The table's words, where the host asks for them (DISP_CTRL and the tag of scanKeys). -/
theorem test_table_words : decodeTableWord 8 0x8D = some (.dispCtrl 5 true) ∧ decodeTableWord 8 6 = some .scanKeys := by
  decide

/-! ### L2-CE -/

/-- L2-CE-1 to L2-CE-5. -/
theorem test_dataInstr :
    dataInstr CmdLayout.default false false false = 0x40 ∧ dataInstr CmdLayout.default true false false = 0x42 ∧
    dataInstr CmdLayout.default false true false = 0x44 ∧ dataInstr CmdLayout.default false false true = 0x48 ∧
    dataInstr CmdLayout.default true true true = 0x4E := by decide
/-- L2-CE-6 to L2-CE-9. -/
theorem test_addr_disp :
    addrInstr CmdLayout.default 9 = 0xC9 ∧ addrInstr CmdLayout.default 15 = 0xCF ∧
    dispInstr CmdLayout.default 0 true = 0x88 ∧ dispInstr CmdLayout.default 7 false = 0x87 ∧
    dispInstr CmdLayout.default 15 false = 0x87 := by decide

/-! ### L2-SD -/

/-- L2-SD-1 to L2-SD-8, numbers and letters. -/
theorem test_segEncode :
    [0x00, 0x01, 0x09, 0x0A, 0x0F, 0x8F, 0x41, 0x61, 0x46, 0x66].map (segEncode Config.defaultSegLut) =
      [0x3F, 0x06, 0x6F, 0x77, 0x71, 0xF1, 0x77, 0x77, 0x71, 0x71] := by decide
/-- L2-SD-9 to L2-SD-15, decimal points and unrecognised values. -/
theorem test_segEncode_other :
    [0xC6, 0xE1, 0x80, 0x10, 0x14, 0x94, 0x30, 0x40, 0x47, 0x60, 0x67, 0x7F, 0xFF].map
        (segEncode Config.defaultSegLut) =
      [0xF1, 0xF7, 0xBF, 0x00, 0x00, 0x80, 0x00, 0x00, 0x00, 0x00, 0x00, 0x00, 0x80] := by decide

/-! ### L2-DRM -/

/-- L2-DRM-8. -/
theorem test_transpose_7 : (transposeDigit 7 0x5B zeroShadow).toList =
    [0x80, 0, 0x80, 0, 0, 0, 0x80, 0, 0x80, 0, 0, 0, 0x80, 0, 0, 0] := by decide
/-- L2-DRM-7. -/
theorem test_transpose_8 : (transposeDigit 8 0x80 zeroShadow).toList =
    [0, 0, 0, 0, 0, 0, 0, 0, 0, 0, 0, 0, 0, 0, 0, 1] := by decide
/-- L2-DRM-11. -/
theorem test_update_ten :
    (updateDigits 0 [0x3F, 0x06, 0x5B, 0x4F, 0x66, 0x6D, 0x7D, 0x07, 0x7F, 0x6F] zeroShadow).toList =
      [0xED, 3, 0x9F, 3, 0xFB, 3, 0x6D, 3, 0x45, 1, 0x71, 3, 0x7C, 3, 0, 0] := by decide
/-- L2-DRM-13. -/
theorem test_transpose_outside : transposeDigit 10 0xFF zeroShadow = zeroShadow := by decide
/-- L2-DRM-11's read-back of position 9. -/
theorem test_readback : readback 9 (updateDigits 8 [0x7F, 0x6F] zeroShadow) = some 0x6F := by decide

/-! ### L2-KSD -/

/-- L2-KSD-10 and L2-KSD-11. -/
theorem test_keyDecode : keyDecode #v[0x11, 0x24, 0x00, 0x40] = 0x840803 ∧
    keyDecode #v[0x01, 0x02, 0x04, 0x08] = 0x100401 := by decide
/-- L2-KSD-12 to L2-KSD-14. -/
theorem test_keyDecode_ignored : keyDecode #v[0xFF, 0xFF, 0xFF, 0xFF] = 0xFFFFFF ∧
    keyDecode #v[0x77, 0x77, 0x77, 0x77] = 0xFFFFFF ∧ keyDecode #v[0x88, 0x88, 0x88, 0x88] = 0 := by decide

/-! ### L2-TI -/

/-- L2-TI-1 and L2-TI-4. -/
theorem test_serialize : serialize 0x42 = [false, true, false, false, false, false, true, false] ∧
    deserialize [false, false, false, false, true, false, false, false] = 0x10 := by decide
/-- The notation of R182. -/
theorem test_traceText : traceText [.bracketBegin, .wr 0x42, .rd 0x7F, .bracketEnd] = "B W42 R7F E".toList := by decide

/-! ### L2-DEV, and the chip frames of R54 -/

/-- L2-DEV-2. -/
theorem test_initialize : after (fun s => (s.life, s.wiring, s.sh, s.tp, replied s, s.bus.log))
    (exec (.initDevice .commonCathode) State.reset) =
      some (.ready, some .commonCathode, zeroShadow, .bound, some (.ok, none), []) := rfl
/-- L2-DEV-3. -/
theorem test_initialize_ready : after (fun s => (s.wiring, replied s))
    (exec (.initDevice .commonAnode) (readyAs .commonCathode [])) =
      some (some .commonCathode, some (.notReady, none)) := by decide
/-- L2-DEV-4. -/
theorem test_configureDisplay : after (fun s => (replied s, s.bus.log, s.chip.bright, s.chip.dispOn))
    (exec (.configureDisplay 9 true) (readyAs .commonCathode (oks 3))) =
      some (some (.ok, none), [.bracketBegin, .wr 0x89, .bracketEnd], 1, true) := by decide
/-- L2-DEV-7. -/
theorem test_setDigit_anode : after (fun s => (replied s, s.bus.log))
    (exec (.setDigit 0 0xFF) (readyAs .commonAnode (oks 22))) =
      some (some (.ok, none), flushOf [1, 0, 1, 0, 1, 0, 1, 0, 1, 0, 1, 0, 1, 0, 1, 0]) := by decide
/-- L2-DEV-11: the shadow change is kept, and no event follows the fourth. -/
theorem test_setDigit_fails : after (fun s => (replied s, s.bus.log, s.sh.toList))
    (exec (.setDigit 3 0x06) (readyAs .commonAnode (oks 4 ++ [.fail]))) =
      some (some (.transportError, none), [.bracketBegin, .wr 0x40, .bracketEnd, .bracketBegin],
        [0, 0, 8, 0, 8, 0, 0, 0, 0, 0, 0, 0, 0, 0, 0, 0]) := by decide
/-- L2-DRM-20, two patterns dropped. -/
theorem test_setDigits_cathode : after (fun s => (replied s, s.bus.log, s.sh, s.chip.dr[15]))
    (exec (.setDigits 14 [1, 2, 3, 4]) (readyAs .commonCathode (oks 8))) =
      some (some (.ok, none), [.bracketBegin, .wr 0x40, .bracketEnd, .bracketBegin, .wr 0xCE, .wr 1, .wr 2, .bracketEnd],
        zeroShadow, 2) := by decide
/-- L2-DRM-21: nothing in range, nothing sent. -/
theorem test_setDigits_past : after (fun s => (replied s, s.bus.log))
    (exec (.setDigits 16 [0xFF]) (readyAs .commonCathode [])) = some (some (.ok, none), []) := by decide
/-- L2-DEV-5. -/
theorem test_setDigitHex : after (fun s => s.bus.log)
    (exec (.setDigitHex 3 0x62 false) (readyAs .commonCathode (oks 7))) =
      some [.bracketBegin, .wr 0x40, .bracketEnd, .bracketBegin, .wr 0xC3, .wr 0x7C, .bracketEnd] := by decide
/-- L2-DEV-6. -/
theorem test_setDigitHex_blank : after (fun s => s.bus.log)
    (exec (.setDigitHex 3 20 true) (readyAs .commonCathode (oks 7))) =
      some [.bracketBegin, .wr 0x40, .bracketEnd, .bracketBegin, .wr 0xC3, .wr 0x80, .bracketEnd] := by decide
/-- L2-DEV-8, the image of L2-DRM-12. -/
theorem test_setDigitsHex : after (fun s => s.bus.log)
    (exec (.setDigitsHex 8 [(1, false), (2, true)]) (readyAs .commonAnode (oks 22))) =
      some (flushOf [0, 2, 0, 3, 0, 1, 0, 2, 0, 2, 0, 0, 0, 2, 0, 2]) := by decide
/-- Step 4 of P1. -/
theorem test_setDigitsHex_cathode : after (fun s => s.bus.log)
    (exec (.setDigitsHex 14 [(0x61, false), (3, false), (20, true)]) (readyAs .commonCathode (oks 8))) =
      some [.bracketBegin, .wr 0x40, .bracketEnd, .bracketBegin, .wr 0xCE, .wr 0x77, .wr 0x4F, .bracketEnd] := by decide
/-- L2-DEV-9. -/
theorem test_scanKeys : after (fun s => (replied s, s.bus.log))
    (exec .scanKeys (readyAs .commonAnode [.ok 9, .ok 9, .ok 0, .ok 0, .ok 0, .ok 0x10, .ok 9])) =
      some (some (.ok, some 0x000080),
        [.bracketBegin, .wr 0x42, .rd 0, .rd 0, .rd 0, .rd 0x10, .bracketEnd]) := by decide
/-- L2-DEV-10: a failure at the third read. -/
theorem test_scanKeys_fails : after (fun s => (replied s, s.bus.log))
    (exec .scanKeys (readyAs .commonAnode [.ok 9, .ok 9, .ok 1, .ok 2, .fail])) =
      some (some (.transportError, none), [.bracketBegin, .wr 0x42, .rd 1, .rd 2]) := by decide
/-- L2-DEV-12. -/
theorem test_shutdown : after (fun s => (s.life, s.tp, replied s, s.bus.log))
    (exec .shutdown (readyAs .commonCathode [])) = some (.released, .unbound, some (.ok, none), []) := rfl
/-- L2-DEV-13's state: a Released block admits nothing. -/
theorem test_shutdown_released : after replied (exec .shutdown (releasedAs .commonCathode)) =
    some (some (.notReady, none)) := by decide
/-- L2-DEV-14. -/
theorem test_reservedTag : refusal (exec (.reservedTag 1 []) State.reset) = some .reservedTag := by decide

/-- R54: the write command, then an address frame. -/
theorem test_chip_write : after (fun s => s.chip.amode) (exec .dataWriteAuto State.reset) = some .writeAuto := by decide
theorem test_chip_address : after (fun s => (s.chip.dr[14], s.chip.dr[15])) (exec (.addrSet 14 [5, 6]) writing) =
    some (5, 6) := by decide
theorem test_chip_read : after (fun s => s.chip.amode) (exec .dataReadKeys writing) = some .unknown := by decide
theorem test_chip_disp : after (fun s => (s.chip.bright, s.chip.dispOn)) (exec (.dispCtrl 5 true) State.reset) =
    some (5, true) := by decide
theorem test_chip_generic : after (fun s => s.chip.amode) (exec (.dataGeneric true false false) writing) =
    some .unknown := by decide
theorem test_chip_generic_test : refusal (exec (.dataGeneric false false true) writing) = some .testMode := by decide
theorem test_chip_fixed : refusal (exec .dataWriteFixed writing) = some .fixedAddressing := by decide
theorem test_chip_fourth : refusal (exec (.class00 0) writing) = some .fourthClass := by decide
theorem test_chip_address_early : refusal (exec (.addrSet 0 [1]) State.reset) = some .addressWithoutWrite := by decide

/-! ### A step -/

/-- The tag of `initialize`, presented as the table's word, runs on the state after reset. -/
theorem test_step_initialize : after (fun s => (s.life, s.port)) (step (State.reset.withFetchWord 8 0)) =
    some (.ready, []) := by decide
/-- R245. -/
theorem test_step_overlap : refusal (step { State.reset with port := [.overlap (.request 6 [])] }) =
    some .overlappingRequest := by decide
/-- R260. -/
theorem test_step_reset : after (fun s => (s.life, s.wiring))
    (step { readyAs .commonAnode [] with port := [.blockReset] }) = some (.unbound, none) := by decide
/-- R253: power loss takes the chip's mode, the open bracket and the trace too; R260: an external reset does not. -/
theorem test_step_powerOn : after (fun s => (s.life, s.chip.amode, s.bus.bracket, s.bus.log))
    (step { interrupted with port := [.powerOn] }) = some (.unbound, .unknown, false, []) := by decide
theorem test_step_reset_chip : after (fun s => (s.life, s.chip.amode, s.bus.bracket, s.bus.log))
    (step { interrupted with port := [.blockReset] }) = some (.unbound, .writeAuto, true, [.bracketBegin]) := by decide

/-! ### Text (R84) -/

/-- Lines of P1. -/
theorem test_line_hex : lineOf "setDigitsHex 14, ['a', 3, 20.] ; a comment" =
    some (some (.request 5 [14, 0x61, 0, 3, 0, 20, 1])) := by decide
theorem test_line_dp : lineOf "setDigitHex 0, 0xF, dp" = some (some (.request 4 [0, 15, 1])) := by decide
theorem test_line_config : lineOf "configureDisplay 9, on" = some (some (.request 1 [9, 1])) := by decide
/-- A line of P3. -/
theorem test_line_empty_list : lineOf "setDigits 10, []" = some (some (.request 3 [10])) := by decide
/-- The pseudo-form `blank p` is `setDigit p, 0x00`. -/
theorem test_line_blank : lineOf "blank 4" = lineOf "setDigit 4, 0x00" := by decide
theorem test_line_comment : lineOf "  ; nothing" = some none := by decide
/-- The repeat form is not in R84's syntax (notes/assumptions/24.md). -/
theorem test_line_repeat : lineOf "setDigits 0, [0x3F x 16]" = none := by decide
theorem test_line_unknown : lineOf "jump 3" = none := by decide

/-! ### Witnesses: concrete states and operands that meet the hypotheses of each statement -/

/-- Clauses that range over positions and values, at their boundaries. -/
theorem boundary_anodeLocate : (anodeLocate 7).isSome ∧ anodeLocate 8 = some (1, 0) ∧ anodeLocate 9 = some (1, 1) ∧
    anodeLocate 10 = none := by decide
theorem boundary_hexIndex : hexIndex 15 = some 15 ∧ hexIndex 16 = none ∧ hexIndex 0x40 = none ∧ hexIndex 0x41 = some 10 ∧
    hexIndex 0x46 = some 15 ∧ hexIndex 0x47 = none ∧ hexIndex 0x60 = none ∧ hexIndex 0x61 = some 10 ∧
    hexIndex 0x66 = some 15 ∧ hexIndex 0x67 = none := by decide
theorem boundary_addrInstrOf : addrInstrOf CmdLayout.default 15 = some 0xCF ∧ addrInstrOf CmdLayout.default 16 = none := by
  decide
theorem boundary_cathodeCount : cathodeCount 15 4 = 1 ∧ cathodeCount 16 4 = 0 ∧ cathodeCount 0 16 = 16 ∧
    cathodeCount 0 17 = 16 ∧ cathodeCount 5 0 = 0 := by decide
theorem boundary_update : readback 9 (updateDigits 8 [1, 2, 3] zeroShadow) = some 2 ∧
    readback 7 (updateDigits 8 [1, 2, 3] zeroShadow) = some 0 ∧ updateDigits 10 [1] zeroShadow = zeroShadow := by decide

/-- Layouts and configurations that meet R71 and R120 (DataInstructionFields, DisplayInstructionFields, DecodeUndoesEncode,
EncodeUndoesDecode, DecimalPointIsOrthogonal). -/
theorem witness_layout : CmdLayout.default.ok = true ∧
    (({ CmdLayout.default with clsData := 0, rwBit := 5, amBit := 0, dispOnBit := 5, readAm := true } : CmdLayout)).ok =
      true ∧ Config.default.ok = true := by decide
theorem witness_wellFormed : (Instr.addrSet 15 [7]).wf CmdLayout.default = true ∧
    decode CmdLayout.default (.frame [0xCF, 7] 0) = .ok (.addrSet 15 [7]) := by decide

theorem witness_blockReset : ({ releasedAs .commonAnode with port := [.blockReset] } : State).port =
    .blockReset :: [] := rfl
/-- BlockResetUnbindsTheBlock, PowerOnIsTheResetMachine and NothingPersistsAcrossPowerLoss. -/
theorem witness_powerOn : ({ interrupted with port := [.powerOn] } : State).port = .powerOn :: [] := rfl
theorem witness_decodedStep : ({ State.reset with port := [.present (.request 6 [])] } : State).port =
      .present (.request 6 []) :: [] ∧
    decode State.reset.cfg.layout (.request 6 []) = .ok .scanKeys := ⟨rfl, by decide⟩
theorem witness_overlap : ({ State.reset with port := [.overlap (.request 6 [])] } : State).port =
    .overlap (.request 6 []) :: [] := rfl
theorem witness_undecodable : decode State.reset.cfg.layout (.frame [] 0) = .error .emptyFrame := by decide

theorem witness_writeBytes : (readyAs .commonAnode [.ok 0, .fail]).tp = .bound ∧
    (readyAs .commonAnode [.ok 0, .fail]).bus.serves 1 = true ∧
    (readyAs .commonAnode [.ok 0, .fail]).bus.failsAt 1 = true := by decide

theorem witness_unbound : State.reset.life = .unbound := rfl
theorem witness_operational (w : Wiring) (script : List Reply) : (readyAs w script).operational :=
  ⟨rfl, rfl, by simp [readyAs]⟩
theorem witness_configure : (readyAs .commonAnode (oks 3)).operational ∧
    (readyAs .commonAnode (oks 3)).bus.serves 3 = true := ⟨witness_operational _ _, by decide⟩
theorem witness_anode : (readyAs .commonAnode (oks 22)).life = .ready ∧ (readyAs .commonAnode (oks 22)).tp = .bound ∧
    (readyAs .commonAnode (oks 22)).wiring = some .commonAnode ∧
    (readyAs .commonAnode (oks 22)).bus.serves 22 = true := by decide
/-- CathodeUpdatesComplete: a write of sixteen registers, of the last one, and of none. -/
theorem witness_cathode (script : List Reply) : (readyAs .commonCathode script).life = .ready ∧
    (readyAs .commonCathode script).tp = .bound ∧ (readyAs .commonCathode script).wiring = some .commonCathode ∧
    (readyAs .commonCathode (oks 22)).bus.serves
      (digitsCalls 0 (List.replicate 16 1) (readyAs .commonCathode (oks 22))) = true ∧
    (readyAs .commonCathode (oks 7)).bus.serves (digitsCalls 15 [1] (readyAs .commonCathode (oks 7))) = true ∧
    (readyAs .commonCathode []).bus.serves (digitsCalls 16 [1] (readyAs .commonCathode [])) = true :=
  ⟨rfl, rfl, rfl, by decide, by decide, by decide⟩
/-- CathodeUpdatesComplete, its plain clause: R146's corner cases (start 14 with four patterns, start 16, no pattern) and
the first and the last register. -/
theorem witness_cathodeClip :
    (cathodeResult 14 [1, 2, 3, 4] (readyAs .commonCathode (oks 8))).chip.dr[14] = 1 ∧
    (cathodeResult 14 [1, 2, 3, 4] (readyAs .commonCathode (oks 8))).chip.dr[15] = 2 ∧
    (cathodeResult 14 [1, 2, 3, 4] (readyAs .commonCathode (oks 8))).chip.dr[0] =
      (readyAs .commonCathode (oks 8)).chip.dr[0] ∧
    (cathodeResult 0 [7] (readyAs .commonCathode (oks 7))).chip.dr[0] = 7 ∧
    (cathodeResult 16 [1] (readyAs .commonCathode [])).bus.log = [] ∧
    (cathodeResult 5 [] (readyAs .commonCathode [])).bus.log = [] :=
  ⟨rfl, rfl, rfl, rfl, rfl, rfl⟩
theorem witness_scan :
    (readyAs .commonAnode [.ok 9, .ok 9, .ok 1, .ok 2, .ok 3, .ok 4, .ok 9]).operational ∧
    (readyAs .commonAnode [.ok 9, .ok 9, .ok 1, .ok 2, .ok 3, .ok 4, .ok 9]).bus.keepsBracket = true ∧
    (readyAs .commonAnode [.ok 9, .ok 9, .ok 1, .ok 2, .ok 3, .ok 4, .ok 9]).bus.serves 7 = true ∧
    Transport.answers 4 ((readyAs .commonAnode [.ok 9, .ok 9, .ok 1, .ok 2, .ok 3, .ok 4, .ok 9]).bus.advance 2) =
      [1, 2, 3, 4] := ⟨witness_operational _ _, rfl, by decide, by decide⟩
theorem witness_shutdown : (readyAs .commonCathode []).life = .ready := rfl
/-- AddressFramesComplete: the last register alone, and all sixteen. -/
theorem witness_addressFrame : writing.chip.amode = .writeAuto ∧ (15#4).toNat + [(1 : Byte)].length ≤ 16 ∧
    (0#4).toNat + (List.replicate 16 (0 : Byte)).length ≤ 16 := ⟨rfl, by decide, by decide⟩
/-- FramesWithoutMeaningAreRefused: each clause's premise. -/
theorem witness_stops : State.reset.chip.amode ≠ .writeAuto ∧ true ≠ State.reset.cfg.layout.readAm ∧
    16 < (15#4).toNat + [(1 : Byte), 2].length := ⟨by decide, by decide, by decide⟩
theorem witness_notReady : State.reset.life ≠ .ready ∧ (readyAs .commonAnode []).life ≠ .unbound := by decide

/-- FailedUpdateKeepsItsPrefix and FailedUpdateLeavesTheChipUnknown: the last call under CommonAnode, and under
CommonCathode the first one, the last of the write command and the first of the address frame. -/
theorem witness_failedUpdate :
    ((readyAs .commonAnode (oks 21 ++ [.fail])).operational ∧
      digitsOf (readyAs .commonAnode (oks 21 ++ [.fail])).cfg.segLut (.setDigit 3 6) = some (3, [6]) ∧
      21 < digitsCalls 3 [6] (readyAs .commonAnode (oks 21 ++ [.fail])) ∧
      (readyAs .commonAnode (oks 21 ++ [.fail])).bus.failsAt 21 = true) ∧
    ((readyAs .commonCathode [.fail]).operational ∧
      digitsOf (readyAs .commonCathode [.fail]).cfg.segLut (.setDigit 3 6) = some (3, [6]) ∧
      0 < digitsCalls 3 [6] (readyAs .commonCathode [.fail]) ∧
      (readyAs .commonCathode [.fail]).bus.failsAt 0 = true) ∧
    (2 < digitsCalls 3 [6] (readyAs .commonCathode (oks 2 ++ [.fail])) ∧
      (readyAs .commonCathode (oks 2 ++ [.fail])).bus.failsAt 2 = true) ∧
    (3 < digitsCalls 3 [6] (readyAs .commonCathode (oks 3 ++ [.fail])) ∧
      (readyAs .commonCathode (oks 3 ++ [.fail])).bus.failsAt 3 = true) :=
  ⟨⟨witness_operational _ _, rfl, by decide, by decide⟩, ⟨witness_operational _ _, rfl, by decide, by decide⟩,
    by decide, by decide⟩
/-- FailedCommandKeepsItsPrefix: the last call of each command, and the first one. -/
theorem witness_failedCommand :
    ((readyAs .commonAnode (oks 2 ++ [.fail])).operational ∧
      (readyAs .commonAnode (oks 2 ++ [.fail])).bus.failsAt 2 = true) ∧
    ((readyAs .commonAnode (oks 6 ++ [.fail])).operational ∧
      (readyAs .commonAnode (oks 6 ++ [.fail])).bus.failsAt 6 = true ∧
      (readyAs .commonAnode (oks 6 ++ [.fail])).bus.keepsBracket = true) ∧
    (readyAs .commonAnode [.fail]).bus.failsAt 0 = true :=
  ⟨⟨witness_operational _ _, by decide⟩, ⟨witness_operational _ _, by decide, rfl⟩, by decide⟩
/-- A Ready block whose transport drops the bracket. -/
def dropping : State :=
  { readyAs .commonAnode [] with bus := { recorder (oks 2) with keepsBracket := false } }
/-- DroppedBracketIsRefused. -/
theorem witness_dropped : dropping.operational ∧ dropping.bus.keepsBracket = false ∧ dropping.bus.serves 2 = true :=
  ⟨⟨rfl, rfl, by simp [dropping, readyAs]⟩, rfl, by decide⟩

/-- ChipFramesTouchOnlyTheObserver. -/
theorem witness_chipFrame : (Instr.dispCtrl 5 true).isRequest = false ∧
    ∃ t, exec (.dispCtrl 5 true) State.reset = .next t ∧ t.chip.bright = 5 := ⟨rfl, _, rfl, rfl⟩
/-- RequestFrame, OkTraceIsCompleteFrames, ObserverFollowsTheTrace, ObserverMirrorsTheDisplay (second clause) and
EventCounts: an update of digits under CommonAnode that returns Ok. -/
theorem witness_okUpdate : (Instr.setDigit 3 6).isRequest = true ∧ (∀ w, Instr.setDigit 3 6 ≠ .initDevice w) ∧
    (readyAs .commonAnode (oks 22)).cfg.layout.ok = true ∧ (readyAs .commonAnode (oks 22)).life = .ready ∧
    (readyAs .commonAnode (oks 22)).wiring = some .commonAnode ∧
    digitsOf (readyAs .commonAnode (oks 22)).cfg.segLut (.setDigit 3 6) = some (3, [6]) ∧
    ∃ t, exec (.setDigit 3 6) (readyAs .commonAnode (oks 22)) = .next t ∧
      t.reply = some { status := .ok, mask := none } :=
  ⟨rfl, by intro w; simp, by decide, rfl, rfl, rfl, _, rfl, rfl⟩
/-- ObserverMirrorsTheDisplay, its first clause at register 15. -/
theorem witness_okCathode : (readyAs .commonCathode (oks 7)).life = .ready ∧
    (readyAs .commonCathode (oks 7)).wiring = some .commonCathode ∧
    ∃ t, exec (.setDigit 15 6) (readyAs .commonCathode (oks 7)) = .next t ∧
      t.reply = some { status := .ok, mask := none } := ⟨rfl, rfl, _, rfl, rfl⟩
/-- EventCounts: a scan, a brightness command, a shutdown and an `initialize` that return Ok. -/
theorem witness_okOthers : (∃ t m, exec .scanKeys (readyAs .commonCathode (oks 7)) = .next t ∧
      t.reply = some { status := .ok, mask := m }) ∧
    (∃ t, exec (.configureDisplay 3 true) (readyAs .commonCathode (oks 3)) = .next t ∧
      t.reply = some { status := .ok, mask := none }) ∧
    (∃ t, exec .shutdown (readyAs .commonCathode []) = .next t ∧
      t.reply = some { status := .ok, mask := none }) ∧
    (∃ t, exec (.initDevice .commonCathode) State.reset = .next t ∧
      t.reply = some { status := .ok, mask := none }) :=
  ⟨⟨_, _, rfl, rfl⟩, ⟨_, rfl, rfl⟩, ⟨_, rfl, rfl⟩, ⟨_, rfl, rfl⟩⟩
/-- OnlyTheEmittedFrames: a register write, with its events and its two frames. -/
theorem witness_onlyFrames : (readyAs .commonCathode (oks 7)).cfg.layout.ok = true ∧
    (Instr.setDigit 3 6).isRequest = true ∧
    ∃ t, exec (.setDigit 3 6) (readyAs .commonCathode (oks 7)) = .next t ∧
      t.reply = some { status := .ok, mask := none } ∧
      t.bus.log = (readyAs .commonCathode (oks 7)).bus.log ++ writeTrace CmdLayout.default 3 [6] ∧
      traceFrames (writeTrace CmdLayout.default 3 [6]) = some [.frame [0x40] 0, .frame [0xC3, 6] 0] :=
  ⟨by decide, rfl, _, rfl, rfl, rfl, by decide⟩
/-- EveryRequestIsAnswered, with a transport that fails at once. -/
theorem witness_answered : (readyAs .commonAnode [.fail]).operational ∧
    (readyAs .commonAnode [.fail]).bus.keepsBracket = true ∧ Instr.scanKeys.isRequest = true ∧
    ∀ low ops, Instr.scanKeys ≠ .reservedTag low ops :=
  ⟨witness_operational _ _, rfl, rfl, by intro low ops; simp⟩

/-- LifecycleMoves: each of the three moves, the last by either reset. -/
theorem witness_moves :
    after (fun s => s.life) (step { State.reset with port := [.present (.request 0 [0])] }) = some .ready ∧
    after (fun s => s.life) (step { readyAs .commonAnode [] with port := [.present (.request 7 [])] }) =
      some .released ∧
    after (fun s => s.life) (step { releasedAs .commonAnode with port := [.blockReset] }) = some .unbound ∧
    after (fun s => s.life) (step { releasedAs .commonAnode with port := [.powerOn] }) = some .unbound := by decide

/-- A Ready block with an update of digits presented, in which nothing has been sent yet. -/
def updating : State :=
  { readyAs .commonAnode (oks 22) with port := [.present (.request 2 [9, 255])] }
/-- The invariants that a step keeps and StepKeepsTheConfiguration: each holds in this state, and a step goes on from
it. -/
theorem witness_invariants : (updating.LifeInv ∧ updating.OddInv ∧ updating.CathodeInv ∧ updating.BracketInv ∧
    updating.ReplyInv) ∧ ∃ t, step updating = .next t :=
  ⟨⟨⟨by simp [updating, readyAs], rfl⟩, by unfold State.OddInv; decide, fun _ => rfl, rfl, by intro r h; cases h⟩,
    _, rfl⟩

end Sys2Proof.Tests
end

section
/-! The family of spec/00_scope.md: what an external block reset leaves alone, and the configuration no step writes. -/

namespace Sys2Proof.Machine

/-- A step with an input presented runs it on the state with the input taken (R27). -/
theorem step_of_port {s : State} {i : Input} {rest : List Input} (h : s.port = i :: rest) :
    step s = runInput i { s with port := rest } := by
  simp only [step, takeInput, h]

@[simp] theorem initializeBody_cfg (w : Wiring) (s : State) : (initializeBody w s).cfg = s.cfg := rfl
@[simp] theorem shutdownBody_cfg (s : State) : (shutdownBody s).cfg = s.cfg := rfl

/-- However a request ends, the configuration is the one it started with. -/
theorem RequestEnd.cfg {i : Instr} {s t : State} (h : RequestEnd i s t) : t.cfg = s.cfg := by
  cases h with
  | notReady => simp
  | initialized w => simp
  | released => simp
  | ok u mask _ he => simpa using he.cfg
  | failed u _ he => simpa using he.cfg

/-- Settles O57: the configuration is kept by resets, chip frames and requests, so by every step. -/
theorem stepKeepsTheConfiguration : Obligations.StepKeepsTheConfiguration := by
  intro s t h
  exact step_keeps (Inv := fun u => u.cfg = s.cfg)
    (hport := fun _ _ hu => hu)
    (hreset := fun u hu => (blockReset_cfg u).trans hu)
    (hpower := fun u hu => (powerOn_cfg u).trans hu)
    (hchip := fun _ _ hu => hu)
    (hreq := fun _ _ _ hu he => he.cfg.trans hu) rfl h

/-- Settles O2: the step is State.blockReset on the state with the input taken, which writes none of these fields. -/
theorem blockResetLeavesTheRest : Obligations.BlockResetLeavesTheRest := by
  intro s rest h
  have hstep : step s = .next ({ s with port := rest } : State).blockReset := step_of_port h
  exact ⟨_, hstep, by simp⟩

end Sys2Proof.Machine
end

section
/-! The family of spec/10_state.md: how a request may change the block's own fields, said once, and from it the
invariants every step keeps, the frame of a request, the moves of the lifecycle and the absence of faults. -/

namespace Sys2Proof.Machine

/-! ### What a request does to the shadow -/

/-- Outside CommonAnode an update of digits leaves the shadow alone (R23, R140). -/
theorem digitsShadow_of_ne_anode {s : State} (h : s.wiring ≠ some .commonAnode) (start : Nat) (ps : List Byte) :
    digitsShadow start ps s = s.sh := by
  rcases wiring_cases s with hw | hw | hw
  · simp [digitsShadow, hw]
  · exact (writeDigits_cathode hw start ps).2.1
  · exact absurd hw h

/-- An update of digits keeps bits 7:2 of every odd shadow byte, under either wiring (R24). -/
theorem digitsShadow_odd (start : Nat) (ps : List Byte) (s : State) (k b : Fin 8) (hb : 2 ≤ b.val) :
    ((digitsShadow start ps s)[registerIndex k 1]).getLsbD b.val = (s.sh[registerIndex k 1]).getLsbD b.val := by
  by_cases hw : s.wiring = some .commonAnode
  · rw [(writeDigits_anode hw start ps).2.1, updateDigits_odd start ps s.sh k b hb]
  · rw [digitsShadow_of_ne_anode hw]

theorem requestShadow_of_digits {i : Instr} {s : State} {start : Nat} {ps : List Byte}
    (h : digitsOf s.cfg.segLut i = some (start, ps)) : requestShadow i s = digitsShadow start ps s := by
  simp only [requestShadow, h]

theorem requestShadow_of_none {i : Instr} {s : State} (h : digitsOf s.cfg.segLut i = none) :
    requestShadow i s = s.sh := by
  simp only [requestShadow, h]

theorem requestShadow_of_ne_anode {s : State} (h : s.wiring ≠ some .commonAnode) (i : Instr) :
    requestShadow i s = s.sh := by
  cases hd : digitsOf s.cfg.segLut i with
  | none => exact requestShadow_of_none hd
  | some d => rw [requestShadow_of_digits hd, digitsShadow_of_ne_anode h]

theorem requestShadow_odd (i : Instr) (s : State) (k b : Fin 8) (hb : 2 ≤ b.val) :
    ((requestShadow i s)[registerIndex k 1]).getLsbD b.val = (s.sh[registerIndex k 1]).getLsbD b.val := by
  cases hd : digitsOf s.cfg.segLut i with
  | none => rw [requestShadow_of_none hd]
  | some d => rw [requestShadow_of_digits hd, digitsShadow_odd d.1 d.2 s k b hb]

/-! ### What a request does to the block and to what lies outside it -/

/-- The state with the block's own fields and the reply of another, everything outside the block as it was (R20). -/
def State.withBlockOf (s t : State) : State :=
  { s with life := t.life, wiring := t.wiring, sh := t.sh, tp := t.tp, reply := t.reply }

/-- An exchange after a shadow update, and the reply given: outside the block it is the exchange. -/
theorem Exchanged.respond_withBlockOf {s u : State} {sh : Vector Byte 16} (h : Exchanged { s with sh := sh } u)
    (st : Status) (m : Option KeyMask) : Exchanged (s.withBlockOf (u.respond st m)) (u.respond st m) where
  rest := by rw [h.rest]; rfl
  kind := h.kind
  keeps := h.keeps
  log := h.log

/-- However a request ends, outside the block and the reply it has only exchanged: the parameters and the port are the
same, the transport keeps its realisation and its duty, the trace has grown and the bracket followed it. -/
theorem RequestEnd.exchanged {i : Instr} {s t : State} (h : RequestEnd i s t) : Exchanged (s.withBlockOf t) t := by
  cases h with
  | notReady => exact .refl _
  | initialized w => exact ⟨rfl, rfl, rfl, [], by simp [State.withBlockOf, initializeBody]⟩
  | released => exact .refl _
  | ok u mask _ he => exact he.respond_withBlockOf .ok mask
  | failed u _ he => exact he.respond_withBlockOf .transportError none

/-- A request is `initDevice` on an Unbound block, `shutdown` on a Ready one, or it keeps the lifecycle, the wiring and
the binding and changes the shadow by its own rule only (R21-R23, R25). -/
theorem RequestEnd.block_cases {i : Instr} {s t : State} (h : RequestEnd i s t) :
    (∃ w, i = .initDevice w ∧ s.life = .unbound ∧ t = initializeBody w s) ∨
    (i = .shutdown ∧ s.life = .ready ∧ t = shutdownBody s) ∨
    (t.life = s.life ∧ t.wiring = s.wiring ∧ t.tp = s.tp ∧ (t.sh = s.sh ∨ t.sh = requestShadow i s)) := by
  cases h with
  | notReady => exact .inr (.inr ⟨rfl, rfl, rfl, .inl rfl⟩)
  | initialized w hi hl => exact .inl ⟨w, hi, hl, rfl⟩
  | released hi hl => exact .inr (.inl ⟨hi, hl, rfl⟩)
  | ok u mask _ he => exact .inr (.inr ⟨he.life, he.wiring, he.tp, .inr he.sh⟩)
  | failed u _ he => exact .inr (.inr ⟨he.life, he.wiring, he.tp, .inr he.sh⟩)

/-! ### The invariants -/

/-- LifeInv speaks of the lifecycle, the wiring and the binding alone. -/
theorem State.LifeInv.congr {s t : State} (h : s.LifeInv) (hl : t.life = s.life) (hw : t.wiring = s.wiring)
    (ht : t.tp = s.tp) : t.LifeInv := by
  unfold State.LifeInv at *
  rwa [hl, hw, ht]

/-- A Ready block that meets LifeInv has a wiring and a bound transport. -/
theorem State.LifeInv.of_ready {s : State} (h : s.LifeInv) (hl : s.life = .ready) :
    s.wiring ≠ none ∧ s.tp = .bound := by
  unfold State.LifeInv at h
  rwa [hl] at h

/-- A request keeps lifecycle, wiring and binding in agreement: `initDevice` sets all three, `shutdown` keeps the wiring
a Ready block has. -/
theorem RequestEnd.lifeInv {i : Instr} {s t : State} (hs : s.LifeInv) (h : RequestEnd i s t) : t.LifeInv := by
  rcases h.block_cases with ⟨w, -, -, rfl⟩ | ⟨-, hl, rfl⟩ | ⟨hl, hw, ht, -⟩
  · exact ⟨Option.some_ne_none w, rfl⟩
  · exact ⟨(hs.of_ready hl).1, rfl⟩
  · exact hs.congr hl hw ht

theorem oddInv_of_zeroShadow {s : State} (h : s.sh = zeroShadow) : s.OddInv := by
  intro k b hb
  rw [h]
  exact zeroShadow_odd k b hb

theorem RequestEnd.oddInv {i : Instr} {s t : State} (hs : s.OddInv) (h : RequestEnd i s t) : t.OddInv := by
  rcases h.block_cases with ⟨w, -, -, rfl⟩ | ⟨-, -, rfl⟩ | ⟨-, -, -, hsh | hsh⟩
  · exact oddInv_of_zeroShadow rfl
  · exact hs
  · intro k b hb
    rw [hsh]
    exact hs k b hb
  · intro k b hb
    rw [hsh, requestShadow_odd i s k b hb]
    exact hs k b hb

theorem RequestEnd.cathodeInv {i : Instr} {s t : State} (hs : s.CathodeInv) (h : RequestEnd i s t) :
    t.CathodeInv := by
  rcases h.block_cases with ⟨w, -, -, rfl⟩ | ⟨-, -, rfl⟩ | ⟨-, hw, -, hsh⟩
  · exact fun _ => rfl
  · exact hs
  · intro hna
    rw [hw] at hna
    rw [requestShadow_of_ne_anode hna, or_self] at hsh
    rw [hsh, hs hna]

/-- An exchange keeps the bracket the one its trace leaves open: both follow the same new events. -/
theorem Exchanged.bracketInv {s t : State} (h : Exchanged s t) (hs : s.BracketInv) : t.BracketInv := by
  obtain ⟨es, hlog, hbracket⟩ := h.log
  unfold State.BracketInv openAfter at *
  rw [hlog, hbracket, hs, List.foldl_append]

/-- Settles O52: resets unbind all three together, requests by `RequestEnd.lifeInv`. -/
theorem stepKeepsTheLifecycleConsistent : Obligations.StepKeepsTheLifecycleConsistent := by
  intro s t hs h
  exact step_keeps (Inv := State.LifeInv)
    (hport := fun _ _ hu => hu)
    (hreset := fun _ _ => ⟨rfl, rfl⟩)
    (hpower := fun _ _ => ⟨rfl, rfl⟩)
    (hchip := fun _ _ hu => hu)
    (hreq := fun _ _ _ hu he => he.lifeInv hu) hs h

/-- Settles O53: resets zero the shadow, requests by `RequestEnd.oddInv`. -/
theorem stepKeepsTheOddBytesClear : Obligations.StepKeepsTheOddBytesClear := by
  intro s t hs h
  exact step_keeps (Inv := State.OddInv)
    (hport := fun _ _ hu => hu)
    (hreset := fun _ _ => oddInv_of_zeroShadow rfl)
    (hpower := fun _ _ => oddInv_of_zeroShadow rfl)
    (hchip := fun _ _ hu => hu)
    (hreq := fun _ _ _ hu he => he.oddInv hu) hs h

/-- Settles O54: resets zero the shadow, requests by `RequestEnd.cathodeInv`. -/
theorem stepKeepsTheCathodeShadowZero : Obligations.StepKeepsTheCathodeShadowZero := by
  intro s t hs h
  exact step_keeps (Inv := State.CathodeInv)
    (hport := fun _ _ hu => hu)
    (hreset := fun _ _ _ => rfl)
    (hpower := fun _ _ _ => rfl)
    (hchip := fun _ _ hu => hu)
    (hreq := fun _ _ _ hu he => he.cathodeInv hu) hs h

/-- Settles O55: an external reset leaves the transport, a power-on empties the trace with the bracket closed, and a
request only exchanges. -/
theorem stepKeepsTheBracketOfTheTrace : Obligations.StepKeepsTheBracketOfTheTrace := by
  intro s t hs h
  exact step_keeps (Inv := State.BracketInv)
    (hport := fun _ _ hu => hu)
    (hreset := fun _ hu => hu)
    (hpower := fun _ _ => rfl)
    (hchip := fun _ _ hu => hu)
    (hreq := fun _ _ _ hu he => he.exchanged.bracketInv hu) hs h

/-! ### The frame of a request and the moves of the lifecycle -/

/-- The end of a sequence that only exchanges keeps the shadow the sequence started with. -/
theorem plain_next_sh {r : Run Unit} {s t : State} (he : Exchanges r s) (h : plain r = .next t) : t.sh = s.sh := by
  cases r with
  | done a u => cases h; exact (he.1 a u rfl).sh
  | failed u => cases h; exact (he.2 u rfl).sh
  | faulted f => cases h
  | refused e => cases h

/-- The shadow after a digit operation, admitted or not (R143, R145, R146, R244). -/
theorem exec_digits_sh {i : Instr} {s t : State} {start : Nat} {ps : List Byte}
    (hd : digitsOf s.cfg.segLut i = some (start, ps)) (h : exec i s = .next t) :
    t.sh = if s.life = .ready then digitsShadow start ps s else s.sh := by
  rw [digitsOf_exec hd] at h
  by_cases hl : s.life = .ready
  · rw [admit_pos hl] at h
    rw [if_pos hl, plain_next_sh (writeDigits_exchanges start ps s) h]
  · rw [admit_neg hl] at h
    cases h
    rw [if_neg hl, respond_sh]

/-- Only `initDevice` and `shutdown` move the lifecycle or the binding (R21, R25). -/
theorem RequestEnd.of_life_or_tp_ne {i : Instr} {s t : State} (h : RequestEnd i s t)
    (hne : t.life ≠ s.life ∨ t.tp ≠ s.tp) : (∃ w, i = .initDevice w) ∨ i = .shutdown := by
  rcases h.block_cases with ⟨w, hi, -⟩ | ⟨hi, -⟩ | ⟨hl, -, ht, -⟩
  · exact .inl ⟨w, hi⟩
  · exact .inr hi
  · exact absurd hne (by simp [hl, ht])

/-- Only `initDevice` on an Unbound block sets the wiring, to its operand (R22). -/
theorem RequestEnd.of_wiring_ne {i : Instr} {s t : State} (h : RequestEnd i s t) (hne : t.wiring ≠ s.wiring) :
    ∃ w, i = .initDevice w ∧ s.life = .unbound ∧ t.wiring = some w := by
  rcases h.block_cases with ⟨w, hi, hl, rfl⟩ | ⟨-, -, rfl⟩ | ⟨-, hw, -⟩
  · exact ⟨w, hi, hl, rfl⟩
  · exact absurd rfl hne
  · exact absurd hw hne

/-- A request that is neither a digit operation nor `initDevice` keeps the shadow (R23). -/
theorem RequestEnd.sh_of_no_digits {i : Instr} {s t : State} (h : RequestEnd i s t)
    (hd : digitsOf s.cfg.segLut i = none) (hi : ∀ w, i ≠ .initDevice w) : t.sh = s.sh := by
  rcases h.block_cases with ⟨w, hw, -⟩ | ⟨-, -, rfl⟩ | ⟨-, -, -, hsh⟩
  · exact absurd hw (hi w)
  · rfl
  · rwa [requestShadow_of_none hd, or_self] at hsh

/-- Settles O39: outside the block a request only exchanges, `RequestEnd.exchanged`; what it does to the block's own
fields follows from `RequestEnd.block_cases`, the shadow of a digit operation is `exec_digits_sh`. -/
theorem requestFrame : Obligations.RequestFrame := by
  intro i s t hi h
  have hend : RequestEnd i s t := exec_request hi h
  have hout := hend.exchanged
  obtain ⟨es, hlog, -⟩ := hout.log
  exact ⟨hout.cfg, hout.port, hout.kind, hout.keeps, ⟨es, hlog⟩, hend.of_life_or_tp_ne, hend.of_wiring_ne,
    fun _ _ hd => exec_digits_sh hd h, hend.sh_of_no_digits⟩

/-- Settles O40: of the instructions only `initDevice` and `shutdown` move the lifecycle, and a block reset is at the
head of the port. -/
theorem lifecycleMoves : Obligations.LifecycleMoves := by
  intro s t h hne
  rcases step_cases h with ⟨-, rfl⟩ | ⟨rest, hp, rfl⟩ | ⟨rest, hp, rfl⟩ | ⟨p, rest, i, -, hexec⟩
  · exact absurd rfl hne
  · exact .inr (.inr ⟨rfl, rest, .inl hp⟩)
  · exact .inr (.inr ⟨rfl, rest, .inr hp⟩)
  · cases hi : i.isRequest with
    | true =>
      rcases (exec_request hi hexec).block_cases with ⟨w, -, hl, rfl⟩ | ⟨-, hl, rfl⟩ | ⟨hl, -⟩
      · exact .inl ⟨hl, rfl⟩
      · exact .inr (.inl ⟨hl, rfl⟩)
      · exact absurd hl hne
    | false =>
      obtain ⟨f, c, -, -, rfl⟩ := exec_chipFrame hi hexec
      exact absurd rfl hne

/-! ### No faults -/

theorem observeFrame_ne_fault (f : Frame) (s : State) (e : Fault) : observeFrame f s ≠ .fault e := by
  unfold observeFrame
  split <;> simp

/-- A data instruction ends as a frame at the observer or refused. -/
theorem execDataGeneric_ne_fault (rw am tm : Bool) (s : State) (e : Fault) :
    execDataGeneric rw am tm s ≠ .fault e := by
  unfold execDataGeneric
  split
  · exact observeFrame_ne_fault _ s e
  · simp

/-- An operation faults only when it is admitted. -/
theorem ifAdmitted_ne_fault {need : Life} {body : State → Host.Outcome State Fault Refusal} {s : State} {e : Fault}
    (h : s.life = need → body s ≠ .fault e) : ifAdmitted need body s ≠ .fault e := by
  by_cases hl : s.life = need
  · rw [admit_pos hl]
    exact h hl
  · rw [admit_neg hl]
    simp

/-- An operation faults only when its transport sequence does. -/
theorem finish_ne_fault {α : Type} {r : Run α} {mask : α → Option KeyMask} {e : Fault} (h : r ≠ .faulted e) :
    finish (r.bind fun a s => .done (mask a) s) ≠ .fault e := by
  cases r with
  | done a s => simp [finish]
  | failed s => simp [finish]
  | faulted f => simpa [finish] using h
  | refused x => simp [finish]

/-- No instruction faults where lifecycle, wiring and binding agree: an admitted operation has a bound transport and a
wiring (R25, R140). -/
theorem exec_ne_fault {s : State} (hs : s.LifeInv) (i : Instr) (e : Fault) : exec i s ≠ .fault e := by
  have digits : ∀ start ps, digitsOf s.cfg.segLut i = some (start, ps) → exec i s ≠ .fault e := by
    intro start ps hd
    rw [digitsOf_exec hd]
    refine ifAdmitted_ne_fault fun hl => finish_ne_fault ?_
    obtain ⟨hw, htp⟩ := hs.of_ready hl
    exact writeDigits_faultless start ps s hw htp e
  cases i with
  | dataWriteAuto => exact observeFrame_ne_fault .dcmd s e
  | dataReadKeys => exact observeFrame_ne_fault .scan s e
  | dataWriteFixed => rintro ⟨⟩
  | dataGeneric rw am tm => exact execDataGeneric_ne_fault rw am tm s e
  | addrSet a data => exact observeFrame_ne_fault (.wdata a data) s e
  | dispCtrl b en => exact observeFrame_ne_fault (.disp b en) s e
  | class00 low => rintro ⟨⟩
  | initDevice w =>
    simp only [exec, execInitialize]
    exact ifAdmitted_ne_fault fun _ => by simp
  | configureDisplay b en =>
    simp only [exec, execConfigureDisplay]
    exact ifAdmitted_ne_fault fun hl => finish_ne_fault (dispCtrl_faultless b en s (hs.of_ready hl).2 e)
  | setDigit p x => exact digits _ _ rfl
  | setDigits p xs => exact digits _ _ rfl
  | setDigitHex p v d => exact digits _ _ rfl
  | setDigitsHex p items => exact digits _ _ rfl
  | scanKeys =>
    simp only [exec, execScanKeys]
    exact ifAdmitted_ne_fault fun hl => finish_ne_fault (scanRead_faultless s (hs.of_ready hl).2 e)
  | shutdown =>
    simp only [exec, execShutdown]
    exact ifAdmitted_ne_fault fun _ => by simp
  | reservedTag low ops => rintro ⟨⟩

/-- A step that faults runs an instruction that does. -/
theorem step_eq_fault {s : State} {e : Fault} (h : step s = .fault e) :
    ∃ rest i, exec i { s with port := rest } = .fault e := by
  cases hp : s.port with
  | nil => simp [step, takeInput, hp] at h
  | cons inp rest =>
    rw [step_of_port hp] at h
    cases inp with
    | present p =>
      simp only [runInput, runPacket] at h
      split at h
      · exact ⟨rest, _, h⟩
      · cases h
    | overlap p => cases h
    | blockReset => cases h
    | powerOn => cases h

/-- Settles O42: a fault of the step would be one of an instruction, by `step_eq_fault`, and none faults, by
`exec_ne_fault`. -/
theorem noFaultFromALiveMachine : Obligations.NoFaultFromALiveMachine := by
  intro s e hs h
  obtain ⟨rest, i, hexec⟩ := step_eq_fault h
  exact exec_ne_fault (s := { s with port := rest }) hs i e hexec

/-! ### The step and the decoder -/

/-- Settles O3: the step takes the packet off the port and runs what it decodes to. -/
theorem stepRunsTheDecodedInstruction : Obligations.StepRunsTheDecodedInstruction := by
  intro s p rest i hp hd
  rw [step_of_port hp]
  simp only [runInput, runPacket, hd]

end Sys2Proof.Machine
end

section
/-! The family of spec/20_memory.md: what a frame at the observer does and where it is refused, what a cut frame leaves
of the observer, the observer replayed from the trace, and that no request reads it. -/

namespace Sys2Proof.Machine

/-! ### Frames at the observer -/

theorem observeFrame_ok {f : Frame} {s : State} {c : Chip} (h : s.chip.consume f = .ok c) :
    observeFrame f s = .next { s with chip := c } := by
  simp only [observeFrame, h]

theorem observeFrame_error {f : Frame} {s : State} {e : Refusal} (h : s.chip.consume f = .error e) :
    observeFrame f s = .refused e := by
  simp only [observeFrame, h]

/-- The write command by its bits (R76). -/
theorem dataFrame_write (l : CmdLayout) : dataFrame l false false false = .ok .dcmd := rfl

/-- The read command by its bits: its addressing bit is READ_AM (R76). -/
theorem dataFrame_read (l : CmdLayout) : dataFrame l true l.readAm false = .ok .scan := by
  simp [dataFrame]

theorem dataFrame_testMode (l : CmdLayout) (rw am : Bool) : dataFrame l rw am true = .error .testMode := rfl

theorem dataFrame_fixedWrite (l : CmdLayout) : dataFrame l false true false = .error .fixedAddressing := rfl

theorem dataFrame_otherRead {l : CmdLayout} {am : Bool} (h : am ≠ l.readAm) :
    dataFrame l true am false = .error .readAddressing := by
  simp [dataFrame, h]

/-- A data instruction with a meaning is its frame at the observer. -/
theorem exec_dataGeneric_ok {s : State} {rw am tm : Bool} {f : Frame}
    (h : dataFrame s.cfg.layout rw am tm = .ok f) : exec (.dataGeneric rw am tm) s = observeFrame f s := by
  simp only [exec, execDataGeneric, h]

theorem exec_dataGeneric_error {s : State} {rw am tm : Bool} {e : Refusal}
    (h : dataFrame s.cfg.layout rw am tm = .error e) : exec (.dataGeneric rw am tm) s = .refused e := by
  simp only [exec, execDataGeneric, h]

theorem legal_wdata {a : BitVec 4} {data : List Byte} :
    (Frame.wdata a data).legal = true ↔ 1 ≤ data.length ∧ a.toNat + data.length ≤ 16 := by
  simp [Frame.legal]

/-- Outside auto-increment write mode an address frame is refused (R54). -/
theorem consume_wdata_misplaced {c : Chip} (h : c.amode ≠ .writeAuto) (a : BitVec 4) (data : List Byte) :
    c.consume (.wdata a data) = .error .addressWithoutWrite := by
  simp [Chip.consume, h]

/-- In it, an address frame without data or past register 15 is refused (R54, R42). -/
theorem consume_wdata_illegal {c : Chip} {a : BitVec 4} {data : List Byte} (hm : c.amode = .writeAuto)
    (hl : (Frame.wdata a data).legal ≠ true) : c.consume (.wdata a data) = .error .registerRange := by
  rw [ne_eq, legal_wdata] at hl
  simp only [Chip.consume, hm, ne_eq, not_true_eq_false, if_false, hl, not_false_eq_true, if_true]

/-- An accepted address frame changes the display registers alone (R54). -/
theorem consume_wdata_eq_ok {c c' : Chip} {a : BitVec 4} {data : List Byte}
    (h : c.consume (.wdata a data) = .ok c') : c' = { c with dr := writeRun a.toNat data c.dr } := by
  rcases consume_ok h with ⟨hf, -⟩ | ⟨hf, -⟩ | ⟨_, _, hf, -⟩ | ⟨_, _, hf, -, -, rfl⟩
  · cases hf
  · cases hf
  · cases hf
  · cases hf; rfl

/-- Settles O30: each command is its frame at the observer, which accepts it in every state. -/
theorem commandFramesComplete : Obligations.CommandFramesComplete := by
  refine ⟨fun s => observeFrame_ok (consume_dcmd _), fun s => observeFrame_ok (consume_scan _),
    fun s b en => observeFrame_ok (consume_disp _ b en), fun s => ?_, ?_⟩
  · rw [exec_dataGeneric_ok (dataFrame_write _), observeFrame_ok (consume_dcmd _)]
  · rintro s _ rfl
    rw [exec_dataGeneric_ok (dataFrame_read _), observeFrame_ok (consume_scan _)]

/-- Settles O31: the observer accepts the frame, and `writeRun_getElem` gives each register inside and outside
the run. -/
theorem addressFramesComplete : Obligations.AddressFramesComplete := by
  intro s a data hmode hpos hend
  refine ⟨_, observeFrame_ok (consume_wdata hmode (legal_wdata.mpr ⟨hpos, hend⟩)), rfl, ?_, ?_⟩
  · intro k hk hk'
    rw [writeRun_getElem, dif_pos (by omega)]
    simp
  · intro i hi hout
    rw [writeRun_getElem, dif_neg (by omega)]

/-- Settles O32: the first three rows are refused by their meaning, a data instruction by `dataFrame`, an address frame
by the observer. -/
theorem framesWithoutMeaningAreRefused : Obligations.FramesWithoutMeaningAreRefused := by
  refine ⟨fun _ => rfl, fun _ _ => rfl, fun _ _ _ => rfl,
    fun _ rw am => exec_dataGeneric_error (dataFrame_testMode _ rw am),
    fun _ => exec_dataGeneric_error (dataFrame_fixedWrite _),
    fun _ _ ham => exec_dataGeneric_error (dataFrame_otherRead ham),
    fun _ a data hm => observeFrame_error (consume_wdata_misplaced hm a data), ?_⟩
  intro s a data hm hbad
  refine observeFrame_error (consume_wdata_illegal hm fun hlegal => ?_)
  obtain ⟨hpos, hend⟩ := legal_wdata.mp hlegal
  rcases hbad with rfl | hfar
  · simp at hpos
  · omega

/-- The instruction a frame with a meaning comes from: only ADDR_SET heads an address frame and only DISP_CTRL a
display-control frame (R54, R75). -/
theorem frameOf_eq_some {l : CmdLayout} {i : Instr} {f : Frame} (h : frameOf l i = some f) :
    f = .dcmd ∨ f = .scan ∨ (∃ a data, i = .addrSet a data ∧ f = .wdata a data) ∨
      (∃ b en, i = .dispCtrl b en ∧ f = .disp b en) := by
  cases i with
  | dataWriteAuto => cases h; exact .inl rfl
  | dataReadKeys => cases h; exact .inr (.inl rfl)
  | dataGeneric rw am tm =>
    simp only [frameOf] at h
    cases hd : dataFrame l rw am tm with
    | ok g =>
      rw [hd] at h
      cases h
      rcases dataFrame_ok hd with hg | hg
      · exact .inl hg
      · exact .inr (.inl hg)
    | error e => rw [hd] at h; cases h
  | addrSet a data => cases h; exact .inr (.inr (.inl ⟨a, data, rfl, rfl⟩))
  | dispCtrl b en => cases h; exact .inr (.inr (.inr ⟨b, en, rfl, rfl⟩))
  | dataWriteFixed => cases h
  | class00 low => cases h
  | initDevice w => cases h
  | configureDisplay b en => cases h
  | setDigit p x => cases h
  | setDigits p xs => cases h
  | setDigitHex p v d => cases h
  | setDigitsHex p items => cases h
  | scanKeys => cases h
  | shutdown => cases h
  | reservedTag low ops => cases h

/-- Settles O38: a chip frame changes the observer alone, by `exec_chipFrame`, and `frameOf_eq_some` says which
instruction heads the frame that changed it. -/
theorem chipFramesTouchOnlyTheObserver : Obligations.ChipFramesTouchOnlyTheObserver := by
  intro i s t hi h
  obtain ⟨f, c, hf, hc, rfl⟩ := exec_chipFrame hi h
  refine ⟨rfl, ?_⟩
  rcases frameOf_eq_some hf with rfl | rfl | ⟨a, data, rfl, rfl⟩ | ⟨b, en, rfl, rfl⟩
  · cases hc; simp
  · cases hc; simp
  · obtain rfl := consume_wdata_eq_ok hc
    exact ⟨fun _ => ⟨a, data, rfl⟩, by simp⟩
  · cases hc; exact ⟨fun hne => absurd rfl hne, fun _ => ⟨b, en, rfl⟩⟩

/-! ### The observer after a cut frame -/

/-- A brightness of three bits is its own field (R83). -/
theorem brightnessField_toNat (b : BitVec 3) : brightnessField b.toNat = b := by
  rw [brightnessField, Nat.mod_eq_of_lt b.isLt, BitVec.ofNat_toNat, BitVec.setWidth_eq]

theorem dispInstr_brightnessField (l : CmdLayout) (b : Nat) (en : Bool) :
    dispInstr l (brightnessField b).toNat en = dispInstr l b en := by
  simp only [dispInstr, brightnessField_toNat]

/-- How a request ends that a transport failure cuts in a frame without registers: the events before the failing call
recorded, the block as it was, the observer's registers kept and the rest of it unknown (R54, R248). -/
def CutCommandEnd (s : State) (es : List Event) (t : State) : Prop :=
  t.reply = some { status := .transportError, mask := none } ∧
  t.bus.log = s.bus.log ++ es ∧
  t.sh = s.sh ∧ t.life = s.life ∧ t.wiring = s.wiring ∧ t.tp = s.tp ∧ t.cfg = s.cfg ∧ t.port = s.port ∧
  t.chip = { s.chip with
    amode := .unknown, bright := Config.drawLevel s.draws, dispOn := Config.drawBit s.draws }

theorem cutCommandEnd_of_unaddressed {f : Frame} (h : ∀ r, f.addresses r = false) (s : State) (n : Nat)
    (es : List Event) :
    CutCommandEnd s es ((cutFrame f (s.afterCalls n es)).respond .transportError none) := by
  refine ⟨rfl, rfl, rfl, rfl, rfl, rfl, rfl, rfl, ?_⟩
  simp [Chip.cut_unaddressed h]

/-- Settles O35: the frame of either command addresses no register, so both end by `cutCommandEnd_of_unaddressed`. -/
theorem failedCommandKeepsItsPrefix : Obligations.FailedCommandKeepsItsPrefix := by
  rintro s k ⟨hlife, htp, -⟩ hf
  constructor
  · intro b en hk
    refine ⟨_, ?_, cutCommandEnd_of_unaddressed (f := .disp (brightnessField b) en) (fun _ => rfl) s (k + 1) _⟩
    simp only [exec, execConfigureDisplay, admit_pos hlife, dispCtrl_failsAt htp hk hf, plain_failed]
    simp only [Frame.events, Frame.bytes, dispInstr_brightnessField]
    rfl
  · intro hk hkeeps
    refine ⟨_, ?_, cutCommandEnd_of_unaddressed (f := .scan) (fun _ => rfl) s (k + 1) _⟩
    simp only [exec, execScanKeys, admit_pos hlife, scanRead_failsAt htp hkeeps hk hf, bind_failed, finish]

/-- Settles O36: the operation is cut in the frame `digitsCut`, and `digitsCut_addresses` says which registers that
frame makes unknown. -/
theorem failedUpdateLeavesTheChipUnknown : Obligations.FailedUpdateLeavesTheChipUnknown := by
  rintro s i start pats k ⟨hlife, htp, -⟩ hd hk hf
  have hcut (r : Nat) (hr : r < 16) := digitsCut_addresses (start := start) (ps := pats) hk hr
  refine ⟨_, by rw [digitsOf_exec hd, admit_pos hlife, writeDigits_failsAt htp hk hf, plain_failed], rfl, rfl, rfl,
    ?_, ?_, ?_⟩
  · intro hk3
    ext1 r hr
    rw [respond_chip, cutFrame_chip, Chip.cut_dr _ _ _ _ hr, if_neg (by rw [hcut r hr]; omega), afterCalls_chip]
  · intro hk3 hw r hr
    rw [respond_chip, cutFrame_chip, Chip.cut_dr _ _ _ _ hr, if_pos (by rw [hcut r hr]; simp [hk3, hw]),
      afterCalls_draws]
  · intro hk3 hw r hr
    have hrun : (digitsCut start pats s k).addresses r = true ↔ start ≤ r ∧ r < start + pats.length := by
      rw [hcut r hr]; simp [hk3, hw]
    simp only [respond_chip, cutFrame_chip, Chip.cut_dr _ _ _ _ hr, hrun, afterCalls_draws, afterCalls_chip]

/-! ### The observer after a successful update -/

theorem isRequest_of_digits {lut : Vector Byte 16} {i : Instr} {d : Nat × List Byte} (h : digitsOf lut i = some d) :
    i.isRequest = true ∧ ∀ w, i ≠ .initDevice w := by
  unfold digitsOf at h
  split at h <;> simp [Instr.isRequest] at h ⊢

/-- A digit operation that returned Ok ends by the rule of its wiring (R140, R145, R146). -/
theorem exec_digits_ok {i : Instr} {s t : State} {start : Nat} {ps : List Byte} {m : Option KeyMask}
    (hd : digitsOf s.cfg.segLut i = some (start, ps)) (h : exec i s = .next t)
    (hr : t.reply = some { status := .ok, mask := m }) :
    (s.wiring = some .commonAnode ∧ t = anodeResult start ps s) ∨
    (s.wiring = some .commonCathode ∧ t = cathodeResult start ps s) := by
  obtain ⟨hreq, hinit⟩ := isRequest_of_digits hd
  obtain ⟨-, hend⟩ := exec_eq_ok hreq hinit h hr
  cases hend with
  | released hi => subst hi; cases hd
  | disp b en hi => subst hi; cases hd
  | scan hi => subst hi; cases hd
  | anode st qs hd' hw => rw [hd] at hd'; cases hd'; exact .inl ⟨hw, rfl⟩
  | cathode st qs hd' hw => rw [hd] at hd'; cases hd'; exact .inr ⟨hw, rfl⟩

@[simp] theorem written_dr (s : State) (a : BitVec 4) (data : List Byte) :
    (s.written a data).chip.dr = writeRun a.toNat data s.chip.dr := rfl
@[simp] theorem written_sh (s : State) (a : BitVec 4) (data : List Byte) : (s.written a data).sh = s.sh := rfl

/-- After an anode update the observer holds the shadow (R55). -/
theorem anodeResult_dr (start : Nat) (ps : List Byte) (s : State) :
    (anodeResult start ps s).chip.dr = (anodeResult start ps s).sh := by
  rw [anodeResult, written_dr, written_sh]
  exact writeRun_full _ _

/-- After a cathode update of one digit the observer holds its pattern (R55). -/
theorem cathodeResult_dr_single {a : Nat} (ha : a < 16) (p : Byte) (s : State) :
    (cathodeResult a [p] s).chip.dr[a] = p := by
  have hcount : cathodeCount a 1 = 1 := by rw [cathodeCount_of_lt ha]; omega
  have hreg : (BitVec.ofNat 4 a).toNat = a := by rw [BitVec.toNat_ofNat, Nat.mod_eq_of_lt ha]
  simp [cathodeResult, hcount, hreg, writeRun]

/-- Settles O48: the end of the operation is the one of its wiring, whose registers are `cathodeResult_dr_single` and
`anodeResult_dr`. -/
theorem observerMirrorsTheDisplay : Obligations.ObserverMirrorsTheDisplay := by
  constructor
  · intro s t a p ha _ hw h hr
    rcases exec_digits_ok (i := .setDigit a p) rfl h hr with ⟨hw', -⟩ | ⟨-, rfl⟩
    · simp [hw] at hw'
    · exact cathodeResult_dr_single ha p s
  · intro s t i start pats _ hw hd h hr
    rcases exec_digits_ok hd h hr with ⟨-, rfl⟩ | ⟨hw', -⟩
    · exact anodeResult_dr start pats s
    · simp [hw] at hw'

/-! ### The observer replayed from the trace -/

@[simp] theorem replayTrace_nil (l : CmdLayout) (c : Chip) : replayTrace l [] c = some c := rfl

section
variable {l : CmdLayout} (hl : l.ok = true)
include hl

theorem decode_cmdWrite : decode l (.frame [cmdWrite l] 0) = .ok .dataWriteAuto := by
  obtain ⟨hrw, ham, htm⟩ := dataInstr_fields hl false false false
  simp [decode, decodeFrame, cmdWrite, classOf_dataInstr, decodeData, hrw, ham, htm]

theorem decode_cmdRead : decode l (.frame [cmdRead l] scanBytes) = .ok .dataReadKeys := by
  obtain ⟨hrw, ham, htm⟩ := dataInstr_fields hl true l.readAm false
  simp [decode, decodeFrame, cmdRead, classOf_dataInstr, decodeData, hrw, ham, htm]

theorem decode_addrInstr (a : BitVec 4) (data : List Byte) :
    decode l (.frame (addrInstr l a :: data) 0) = .ok (.addrSet a data) := by
  obtain ⟨-, hda, -⟩ := layout_ok hl
  simp [decode, decodeFrame, classOf_addrInstr, hda.symm, decodeAddr, addrInstr_low]

theorem decode_dispInstr (b : BitVec 3) (en : Bool) :
    decode l (.frame [dispInstr l b.toNat en] 0) = .ok (.dispCtrl b en) := by
  obtain ⟨hdd, -, hpa, -⟩ := layout_ok hl
  simp [decode, decodeFrame, classOf_dispInstr, hdd.symm, hpa, decodeDisp, dispInstr_low hl, dispInstr_on hl,
    brightnessField_toNat]

/-- The chip sees each of the block's frames, decoded from its bytes, as that frame (R54, R77). -/
theorem observePacket_frame (f : Frame) (c : Chip) :
    observePacket l (.frame (f.bytes l) f.reads) c = (c.consume f).toOption := by
  cases f with
  | dcmd => simp only [observePacket, Frame.bytes, Frame.reads, decode_cmdWrite hl, frameOf]
  | wdata a data => simp only [observePacket, Frame.bytes, Frame.reads, decode_addrInstr hl, frameOf]
  | disp b en => simp only [observePacket, Frame.bytes, Frame.reads, decode_dispInstr hl, frameOf]
  | scan => simp only [observePacket, Frame.bytes, Frame.reads, decode_cmdRead hl, frameOf]

/-- A trace that starts with a complete frame the chip accepts, replayed. -/
theorem replayTrace_events_append {f : Frame} {c c' : Chip} {as : List Byte} (has : as.length = f.reads)
    (hc : c.consume f = .ok c') (es : List Event) :
    replayTrace l (f.events l as ++ es) c = replayTrace l es c' := by
  have hp := observePacket_frame hl f c
  rw [hc] at hp
  simp only [replayTrace, traceFrames, frames_cons, has]
  cases framesFrom none es with
  | none => rfl
  | some ps => simp [replay, hp, Except.toOption]

/-- A trace of one complete frame the chip accepts, replayed. -/
theorem replayTrace_events {f : Frame} {c c' : Chip} {as : List Byte} (has : as.length = f.reads)
    (hc : c.consume f = .ok c') : replayTrace l (f.events l as) c = some c' := by
  simpa using replayTrace_events_append hl has hc []

/-- The trace of a register write, replayed (R104, R54). -/
theorem replayTrace_writeTrace {a : BitVec 4} {data : List Byte} (hlegal : (Frame.wdata a data).legal = true)
    (c : Chip) :
    replayTrace l (writeTrace l a data) c =
      some { c with amode := .writeAuto, dr := writeRun a.toNat data c.dr } := by
  rw [writeTrace, replayTrace_events_append hl rfl (consume_dcmd c)]
  exact replayTrace_events hl rfl (consume_wdata rfl hlegal)

end

/-- Settles O45: each way to end with Ok has a trace of complete frames, replayed frame by frame. -/
theorem observerFollowsTheTrace : Obligations.ObserverFollowsTheTrace := by
  intro i s t m hl hi hinit h hr
  obtain ⟨-, hend⟩ := exec_eq_ok hi hinit h hr
  cases hend with
  | released => exact ⟨[], (List.append_nil _).symm, rfl⟩
  | disp b en _ _ ht =>
    subst ht
    exact ⟨_, rfl, replayTrace_events hl rfl (consume_disp _ _ _)⟩
  | scan _ reg hlen _ _ ht =>
    subst ht
    exact ⟨_, rfl, replayTrace_events hl hlen (consume_scan _)⟩
  | anode st ps =>
    exact ⟨_, rfl, replayTrace_writeTrace hl (flush_frame_legal _) _⟩
  | cathode st ps =>
    unfold cathodeResult
    split
    · exact ⟨[], (List.append_nil _).symm, rfl⟩
    · exact ⟨_, rfl, replayTrace_writeTrace hl (cathode_frame_legal ‹_›) _⟩

/-! ### No request reads the observer -/

@[simp] theorem withoutObserver_chip (s : State) (c : Chip) (n : Nat) : (s.withoutObserver c n).chip = c := rfl
@[simp] theorem withoutObserver_wiring (s : State) (c : Chip) (n : Nat) :
    (s.withoutObserver c n).wiring = s.wiring := rfl

/-- Two states that agree but for the observer and the draw counter. -/
def SameButObserver (u v : State) : Prop := ∃ c n, v = u.withoutObserver c n

/-- Two runs that end the same way, with the same result, in states that agree but for the observer. -/
inductive Run.Alike {α : Type} : Run α → Run α → Prop where
  | done (a : α) {u v : State} (h : SameButObserver u v) : Run.Alike (.done a u) (.done a v)
  | failed {u v : State} (h : SameButObserver u v) : Run.Alike (.failed u) (.failed v)
  | faulted (f : Fault) : Run.Alike (.faulted f) (.faulted f)
  | refused (r : Refusal) : Run.Alike (.refused r) (.refused r)

theorem Run.Alike.bind {α β : Type} {r r' : Run α} {k k' : α → State → Run β} (h : r.Alike r')
    (hk : ∀ a u v, r = .done a u → r' = .done a v → SameButObserver u v → (k a u).Alike (k' a v)) :
    (r.bind k).Alike (r'.bind k') := by
  cases h with
  | done a h => exact hk a _ _ rfl rfl h
  | failed h => exact .failed h
  | faulted f => exact .faulted f
  | refused e => exact .refused e

/-- The calls of a frame keep the observer: they pass through putting it back as it was. -/
theorem frameCalls_chip {f : Frame} {s t : State} {as : List Byte} (h : frameCalls f s = .done as t) :
    t.chip = s.chip := by
  have hsim : frameCalls f s = (frameCalls f s).mapState fun u => u.withoutObserver s.chip s.draws :=
    (callSim_observer s.chip s.draws).frameCalls f s
  rw [h] at hsim
  injection hsim with _ ht
  rw [ht]
  rfl

/-- Whether the observer accepts a frame depends on its mode alone, and on that only for an address frame (R54). -/
theorem consume_agree {c d : Chip} {f : Frame} (h : c.amode = d.amode ∨ ∀ a data, f ≠ .wdata a data) :
    (∃ c' d', c.consume f = .ok c' ∧ d.consume f = .ok d') ∨
    (∃ e, c.consume f = .error e ∧ d.consume f = .error e) := by
  cases f with
  | dcmd => exact .inl ⟨_, _, rfl, rfl⟩
  | scan => exact .inl ⟨_, _, rfl, rfl⟩
  | disp b en => exact .inl ⟨_, _, rfl, rfl⟩
  | wdata a data =>
    have hmode : c.amode = d.amode := h.resolve_right fun hne => hne a data rfl
    by_cases hc : c.amode = .writeAuto
    · have hd := hmode ▸ hc
      by_cases hl : (Frame.wdata a data).legal = true
      · exact .inl ⟨_, _, consume_wdata hc hl, consume_wdata hd hl⟩
      · exact .inr ⟨_, consume_wdata_illegal hc hl, consume_wdata_illegal hd hl⟩
    · have hd := hmode ▸ hc
      exact .inr ⟨_, consume_wdata_misplaced hc a data, consume_wdata_misplaced hd a data⟩

/-- A frame sent from two states that agree but for the observer, where both observers accept it or both refuse it. -/
theorem sendFrame_alike {f : Frame} {u v : State} (h : SameButObserver u v)
    (hmode : u.chip.amode = v.chip.amode ∨ ∀ a data, f ≠ .wdata a data) :
    (sendFrame f u).Alike (sendFrame f v) := by
  obtain ⟨c, n, rfl⟩ := h
  have hsim : frameCalls f (u.withoutObserver c n) = (frameCalls f u).mapState fun w => w.withoutObserver c n :=
    (callSim_observer c n).frameCalls f u
  unfold sendFrame
  rw [hsim]
  cases hcalls : frameCalls f u with
  | done as t =>
    rw [withoutObserver_chip, ← frameCalls_chip hcalls] at hmode
    rcases consume_agree hmode with ⟨c₁, c₂, h₁, h₂⟩ | ⟨e, h₁, h₂⟩
    · simp only [Run.mapState, h₁, withoutObserver_chip, h₂]
      exact .done as ⟨c₂, n, rfl⟩
    · simp only [Run.mapState, h₁, withoutObserver_chip, h₂]
      exact .refused e
  | failed t => exact .failed ⟨_, _, rfl⟩
  | faulted e => exact .faulted e
  | refused r => exact .refused r

/-- After the write command the observer holds auto-increment write mode (R54). -/
theorem sendFrame_dcmd_amode {s t : State} {as : List Byte} (h : sendFrame .dcmd s = .done as t) :
    t.chip.amode = .writeAuto := by
  unfold sendFrame at h
  split at h <;> cases h
  rfl

theorem writeRegs_alike {u v : State} (h : SameButObserver u v) (a : BitVec 4) (data : List Byte) :
    (writeRegs a data u).Alike (writeRegs a data v) := by
  refine (sendFrame_alike h (.inr (by simp))).bind fun _ u₁ v₁ hu hv h₁ => ?_
  have hmode : u₁.chip.amode = v₁.chip.amode := (sendFrame_dcmd_amode hu).trans (sendFrame_dcmd_amode hv).symm
  exact (sendFrame_alike h₁ (.inl hmode)).bind fun _ _ _ _ _ h₂ => .done () h₂

theorem dispCtrl_alike {u v : State} (h : SameButObserver u v) (b : Nat) (en : Bool) :
    (dispCtrl b en u).Alike (dispCtrl b en v) :=
  (sendFrame_alike h (.inr (by simp))).bind fun _ _ _ _ _ h₁ => .done () h₁

theorem scanRead_alike {u v : State} (h : SameButObserver u v) : (scanRead u).Alike (scanRead v) :=
  (sendFrame_alike h (.inr (by simp))).bind fun _ _ _ _ _ h₁ => .done _ h₁

theorem writeDigits_alike {u v : State} (h : SameButObserver u v) (start : Nat) (ps : List Byte) :
    (writeDigits start ps u).Alike (writeDigits start ps v) := by
  obtain ⟨c, n, rfl⟩ := h
  rcases wiring_cases u with hw | hw | hw
  · rw [writeDigits_unset hw, writeDigits_unset ((withoutObserver_wiring u c n).trans hw)]
    exact .faulted _
  · rw [(writeDigits_cathode hw start ps).1, (writeDigits_cathode ((withoutObserver_wiring u c n).trans hw) start ps).1]
    unfold cathodeWrite
    simp only
    split
    · exact .done () ⟨c, n, rfl⟩
    · exact writeRegs_alike ⟨c, n, rfl⟩ _ _
  · rw [(writeDigits_anode hw start ps).1, (writeDigits_anode ((withoutObserver_wiring u c n).trans hw) start ps).1]
    exact writeRegs_alike ⟨c, n, rfl⟩ _ _

/-- Two outcomes that are the same once the observer is put aside. -/
def SameOutcome (o o' : Host.Outcome State Fault Refusal) : Prop :=
  ∀ c n, mapOutcome (fun t => t.withoutObserver c n) o = mapOutcome (fun t => t.withoutObserver c n) o'

theorem SameButObserver.next {u v : State} (h : SameButObserver u v) : SameOutcome (.next u) (.next v) := by
  obtain ⟨c, n, rfl⟩ := h
  exact fun _ _ => rfl

theorem SameButObserver.respond {u v : State} (h : SameButObserver u v) (st : Status) (m : Option KeyMask) :
    SameButObserver (u.respond st m) (v.respond st m) := by
  obtain ⟨c, n, rfl⟩ := h
  exact ⟨c, n, rfl⟩

theorem Run.Alike.finish {r r' : Run (Option KeyMask)} (h : r.Alike r') :
    SameOutcome (Machine.finish r) (Machine.finish r') := by
  cases h with
  | done m h => exact (h.respond _ _).next
  | failed h => exact (h.respond _ _).next
  | faulted f => exact fun _ _ => rfl
  | refused e => exact fun _ _ => rfl

theorem Run.Alike.plain {r r' : Run Unit} (h : r.Alike r') :
    SameOutcome (Machine.plain r) (Machine.plain r') :=
  (h.bind fun _ _ _ _ _ h₁ => .done none h₁).finish

/-- Admission reads the lifecycle alone (R200). -/
theorem SameButObserver.admitted {u v : State} (h : SameButObserver u v) (need : Life)
    {body body' : State → Host.Outcome State Fault Refusal} (hb : SameOutcome (body u) (body' v)) :
    SameOutcome (ifAdmitted need body u) (ifAdmitted need body' v) := by
  have hlife : v.life = u.life := by obtain ⟨c, n, rfl⟩ := h; rfl
  by_cases hl : u.life = need
  · rw [admit_pos hl, admit_pos (hlife.trans hl)]
    exact hb
  · rw [admit_neg hl, admit_neg (hlife ▸ hl)]
    exact (h.respond _ _).next

/-- A request has the same outcome from two states that agree but for the observer (R54). -/
theorem exec_sameOutcome {i : Instr} {u v : State} (hi : i.isRequest = true) (h : SameButObserver u v) :
    SameOutcome (exec i u) (exec i v) := by
  have hcfg : v.cfg = u.cfg := by obtain ⟨c, n, rfl⟩ := h; rfl
  have digits : ∀ start ps, digitsOf u.cfg.segLut i = some (start, ps) → SameOutcome (exec i u) (exec i v) := by
    intro start ps hd
    rw [digitsOf_exec hd, digitsOf_exec (hcfg ▸ hd)]
    exact h.admitted .ready (writeDigits_alike h start ps).plain
  cases i with
  | dataWriteAuto => simp [Instr.isRequest] at hi
  | dataReadKeys => simp [Instr.isRequest] at hi
  | dataWriteFixed => simp [Instr.isRequest] at hi
  | dataGeneric => simp [Instr.isRequest] at hi
  | addrSet => simp [Instr.isRequest] at hi
  | dispCtrl => simp [Instr.isRequest] at hi
  | class00 => simp [Instr.isRequest] at hi
  | initDevice w =>
    simp only [exec, execInitialize]
    refine h.admitted .unbound (SameButObserver.next ?_)
    obtain ⟨c, n, rfl⟩ := h
    exact ⟨_, _, rfl⟩
  | configureDisplay b en =>
    simp only [exec, execConfigureDisplay]
    refine h.admitted .ready ?_
    exact (dispCtrl_alike h b en).plain
  | setDigit p x => exact digits _ _ rfl
  | setDigits p xs => exact digits _ _ rfl
  | setDigitHex p v d => exact digits _ _ rfl
  | setDigitsHex p items => exact digits _ _ rfl
  | scanKeys =>
    simp only [exec, execScanKeys]
    refine h.admitted .ready (Run.Alike.finish ?_)
    exact (scanRead_alike h).bind fun reg _ _ _ _ h₁ => .done (some (keyDecode reg)) h₁
  | shutdown =>
    simp only [exec, execShutdown]
    refine h.admitted .ready (SameButObserver.next ?_)
    obtain ⟨c, n, rfl⟩ := h
    exact ⟨_, _, rfl⟩
  | reservedTag low ops => exact fun _ _ => rfl

/-- Settles O46: replacing the observer gives a state that agrees but for it, so `exec_sameOutcome` applies. -/
theorem theBlockNeverReadsTheObserver : Obligations.TheBlockNeverReadsTheObserver := by
  intro i s c c' n n' hi
  exact (exec_sameOutcome hi (u := s) ⟨c, n, rfl⟩ c' n').symm

end Sys2Proof.Machine
end

section
/-! The family of spec/30_encoding.md: the round trips of decoder and encoder, built from one fact for each part of the
decoder, and what follows for the frames the block emits. -/

namespace Sys2Proof.Machine

/-! ### Decoding what was encoded -/

section
variable {l : CmdLayout} (hl : l.ok = true)
include hl

theorem decode_dataWriteFixed : decode l (.frame [dataInstr l false true false] 0) = .ok .dataWriteFixed := by
  obtain ⟨hrw, ham, htm⟩ := dataInstr_fields hl false true false
  simp [decode, decodeFrame, classOf_dataInstr, decodeData, hrw, ham, htm]

/-- A data instruction whose bits are neither a write's nor the read command's is read back as its three bits (R72). -/
theorem decode_dataGeneric {rw am tm : Bool} (hwf : (Instr.dataGeneric rw am tm).wf l = true) :
    decode l (.frame [dataInstr l rw am tm] 0) = .ok (.dataGeneric rw am tm) := by
  obtain ⟨hrw, ham, htm⟩ := dataInstr_fields hl rw am tm
  obtain ⟨hwrite, hread⟩ : (!rw && !tm) = false ∧ (rw && am == l.readAm && !tm) = false := by
    simpa only [Instr.wf, Bool.and_eq_true, Bool.not_eq_true'] using hwf
  simp only [decode, decodeFrame, classOf_dataInstr, if_true, decodeData, hrw, ham, htm, ne_eq, not_true_eq_false,
    if_false, hread, hwrite, Bool.false_eq_true]

theorem decode_fourthInstr (low : BitVec 6) : decode l (.frame [fourthInstr l low] 0) = .ok (.class00 low) := by
  obtain ⟨hdata, haddr, hdisp⟩ := clsFourth_ne hl
  simp [decode, decodeFrame, classOf_fourthInstr, hdata, haddr, hdisp, decodeFourth, fourthInstr_low]

end

/-- A tag of 8 or more is reserved, whatever its operands (R82, R200). -/
theorem decodeRequest_of_ge {tag : BitVec 4} (h : 8 ≤ tag.toNat) (operands : List Nat) :
    decodeRequest tag operands = .ok (.reservedTag (tag.setWidth 3) operands) := by
  unfold decodeRequest
  split
  case h_9 => rfl
  all_goals omega

/-- The tag that encodes a reserved tag's low bits is reserved and gives them back (R82). -/
theorem reservedTag_fields : ∀ low : BitVec 3,
    8 ≤ (8#4 ||| low.setWidth 4).toNat ∧ (8#4 ||| low.setWidth 4).setWidth 3 = low := by
  decide

/-- A reserved tag is the one its low bits encode. -/
theorem reservedTag_of_ge : ∀ tag : BitVec 4, 8 ≤ tag.toNat → 8#4 ||| (tag.setWidth 3).setWidth 4 = tag := by
  decide

theorem decodeRequest_reserved (low : BitVec 3) (operands : List Nat) :
    decodeRequest (8#4 ||| low.setWidth 4) operands = .ok (.reservedTag low operands) := by
  obtain ⟨hge, hlow⟩ := reservedTag_fields low
  rw [decodeRequest_of_ge hge, hlow]

/-- Settles O9: the frames by the fact about each instruction byte, the requests by the operand readers. -/
theorem decodeUndoesEncode : Obligations.DecodeUndoesEncode := by
  intro l hl i hwf
  cases i with
  | dataWriteAuto => exact decode_cmdWrite hl
  | dataReadKeys => exact decode_cmdRead hl
  | dataWriteFixed => exact decode_dataWriteFixed hl
  | dataGeneric rw am tm => exact decode_dataGeneric hl hwf
  | addrSet a data => exact decode_addrInstr hl a data
  | dispCtrl b en => exact decode_dispInstr hl b en
  | class00 low => exact decode_fourthInstr hl low
  | initDevice w => simp [encode, decode, decodeRequest, decodeInitialize, readBit_toNat, wiringOfBit_wiringBit]
  | configureDisplay b en => simp [encode, decode, decodeRequest, decodeConfigureDisplay, readBit_toNat]
  | setDigit p x => simp [encode, decode, decodeRequest, decodeSetDigit, readByte_toNat]
  | setDigits p xs => simp [encode, decode, decodeRequest, decodeSetDigits, readPatterns_map]
  | setDigitHex p v d => simp [encode, decode, decodeRequest, decodeSetDigitHex, readSeven_toNat, readBit_toNat]
  | setDigitsHex p items => simp [encode, decode, decodeRequest, decodeSetDigitsHex, readItems_items]
  | scanKeys => rfl
  | shutdown => rfl
  | reservedTag low ops => exact decodeRequest_reserved low ops

/-! ### Encoding what was decoded -/

/-- A data instruction that decodes has no bit beside its fields, no data and the reads of its kind (R72, R77). -/
theorem encode_of_decodeData {l : CmdLayout} {b : Byte} {data : List Byte} {reads : Nat} {i : Instr}
    (h : decodeData l b data reads = .ok i) : encode l i = .frame (b :: data) reads := by
  unfold decodeData at h
  generalize b.getLsbD l.rwBit = rw, b.getLsbD l.amBit = am, b.getLsbD l.tmBit = tm at h
  simp only at h
  split_ifs at h with hb hdata hkeys hreads hreads hwrite ham <;> cases h
  all_goals rw [not_ne_iff] at hb hdata; rw [hb, hdata]
  · obtain ⟨⟨rfl, rfl⟩, rfl⟩ : (rw = true ∧ am = l.readAm) ∧ tm = false := by simpa using hkeys
    rw [hreads]; rfl
  · obtain ⟨rfl, rfl⟩ : rw = false ∧ tm = false := by simpa using hwrite
    rw [ham, not_ne_iff.mp hreads]; rfl
  · obtain ⟨rfl, rfl⟩ : rw = false ∧ tm = false := by simpa using hwrite
    rw [Bool.not_eq_true] at ham
    rw [ham, not_ne_iff.mp hreads]; rfl
  · rw [not_ne_iff.mp hreads]; rfl

theorem encode_of_decodeAddr {l : CmdLayout} {b : Byte} {data : List Byte} {reads : Nat} {i : Instr}
    (h : decodeAddr l b data reads = .ok i) : encode l i = .frame (b :: data) reads := by
  unfold decodeAddr at h
  simp only at h
  split_ifs at h with hb hreads
  cases h
  rw [not_ne_iff] at hb hreads
  rw [encode, ← hb, hreads]

theorem encode_of_decodeDisp {l : CmdLayout} {b : Byte} {data : List Byte} {reads : Nat} {i : Instr}
    (h : decodeDisp l b data reads = .ok i) : encode l i = .frame (b :: data) reads := by
  unfold decodeDisp at h
  simp only at h
  split_ifs at h with hb hdata hreads
  cases h
  rw [not_ne_iff] at hb hdata hreads
  rw [encode, ← hb, hdata, hreads]

theorem encode_of_decodeFourth {l : CmdLayout} {b : Byte} {data : List Byte} {reads : Nat} {i : Instr}
    (hb : classOf b = l.clsFourth) (h : decodeFourth b data reads = .ok i) :
    encode l i = .frame (b :: data) reads := by
  unfold decodeFourth at h
  split_ifs at h with hdata hreads
  cases h
  rw [not_ne_iff] at hdata hreads
  rw [encode, fourthInstr_of_class b l hb, hdata, hreads]

/-- A frame that decodes is the encoding of its instruction; a class that is none of the three is the fourth (R70). -/
theorem encode_of_decodeFrame {l : CmdLayout} (hl : l.ok = true) {written : List Byte} {reads : Nat} {i : Instr}
    (h : decodeFrame l written reads = .ok i) : encode l i = .frame written reads := by
  cases written with
  | nil => cases h
  | cons b data =>
    simp only [decodeFrame] at h
    split_ifs at h with hdata haddr hdisp
    · exact encode_of_decodeData h
    · exact encode_of_decodeAddr h
    · exact encode_of_decodeDisp h
    · exact encode_of_decodeFourth (eq_clsFourth hl hdata haddr hdisp) h

section
variable {l : CmdLayout} {ops : List Nat} {i : Instr}

theorem encode_of_decodeInitialize (h : decodeInitialize ops = .ok i) : encode l i = .request 0 ops := by
  unfold decodeInitialize at h
  split at h
  · split at h
    · cases h; simp only [encode, wiringBit_wiringOfBit, readBit_ok ‹_›]
    · cases h
  · cases h

theorem encode_of_decodeConfigureDisplay (h : decodeConfigureDisplay ops = .ok i) :
    encode l i = .request 1 ops := by
  unfold decodeConfigureDisplay at h
  split at h
  · split at h
    · cases h; simp only [encode, readBit_ok ‹_›]
    · cases h
  · cases h

theorem encode_of_decodeSetDigit (h : decodeSetDigit ops = .ok i) : encode l i = .request 2 ops := by
  unfold decodeSetDigit at h
  split at h
  · split at h
    · cases h; simp only [encode, readByte_ok ‹_›]
    · cases h
  · cases h

theorem encode_of_decodeSetDigits (h : decodeSetDigits ops = .ok i) : encode l i = .request 3 ops := by
  unfold decodeSetDigits at h
  split at h
  · split at h
    · cases h; simp only [encode, readPatterns_ok ‹_›]
    · cases h
  · cases h

theorem encode_of_decodeSetDigitHex (h : decodeSetDigitHex ops = .ok i) : encode l i = .request 4 ops := by
  unfold decodeSetDigitHex at h
  split at h
  · split at h
    · cases h; simp only [encode, readSeven_ok ‹_›, readBit_ok ‹_›]
    · cases h
    · cases h
  · cases h

theorem encode_of_decodeSetDigitsHex (h : decodeSetDigitsHex ops = .ok i) : encode l i = .request 5 ops := by
  unfold decodeSetDigitsHex at h
  split at h
  · split at h
    · cases h; simp only [encode, readItems_ok ‹_›]
    · cases h
  · cases h

theorem decodeBare_ok {j : Instr} (h : decodeBare j ops = .ok i) : i = j ∧ ops = [] := by
  cases ops with
  | nil => cases h; exact ⟨rfl, rfl⟩
  | cons n ns => cases h

/-- A request that decodes is the encoding of its instruction, by its tag (R82). -/
theorem encode_of_decodeRequest {tag : BitVec 4} (h : decodeRequest tag ops = .ok i) :
    encode l i = .request tag ops := by
  by_cases hge : 8 ≤ tag.toNat
  · rw [decodeRequest_of_ge hge] at h
    cases h
    rw [encode, reservedTag_of_ge tag hge]
  · have htag : tag = 0 ∨ tag = 1 ∨ tag = 2 ∨ tag = 3 ∨ tag = 4 ∨ tag = 5 ∨ tag = 6 ∨ tag = 7 := by bv_omega
    rcases htag with rfl | rfl | rfl | rfl | rfl | rfl | rfl | rfl
    · exact encode_of_decodeInitialize h
    · exact encode_of_decodeConfigureDisplay h
    · exact encode_of_decodeSetDigit h
    · exact encode_of_decodeSetDigits h
    · exact encode_of_decodeSetDigitHex h
    · exact encode_of_decodeSetDigitsHex h
    · obtain ⟨rfl, rfl⟩ := decodeBare_ok h
      rfl
    · obtain ⟨rfl, rfl⟩ := decodeBare_ok h
      rfl

end

/-- Settles O10: by the port of the packet, a request by its tag and a frame by the class of its first byte. -/
theorem encodeUndoesDecode : Obligations.EncodeUndoesDecode := by
  intro l hl p i h
  cases p with
  | request tag ops => exact encode_of_decodeRequest h
  | frame written reads => exact encode_of_decodeFrame hl h

/-! ### The address instruction and a few packets written out -/

/-- Settles O6: the class, bits 5 and 4, and the low four bits are those of `addrInstr`'s laws. -/
theorem addressInstructionFields : Obligations.AddressInstructionFields := by
  intro l
  refine ⟨fun a => ⟨classOf_addrInstr l a, ?_, ?_, addrInstr_low l a⟩, fun n h => if_pos h,
    fun n h => if_neg (Nat.not_le.mpr h)⟩
  · rw [addrInstr_getLsbD l a 5 (by decide), BitVec.getLsbD_of_ge a 5 (by decide)]; rfl
  · rw [addrInstr_getLsbD l a 4 (by decide), BitVec.getLsbD_of_ge a 4 (by decide)]; rfl

/-- The packet of a well-formed instruction decodes to it. -/
theorem decode_of_encode_eq {l : CmdLayout} {p : Packet} {i : Instr} (hl : l.ok = true) (hwf : i.wf l = true)
    (h : encode l i = p) : decode l p = .ok i :=
  h ▸ decodeUndoesEncode l hl i hwf

/-- Settles O8: each packet is the encoding of its instruction, so O9 decodes it. -/
theorem wordsOfTheDefaultLayoutDecode : Obligations.WordsOfTheDefaultLayoutDecode := by
  have hl : CmdLayout.default.ok = true := rfl
  exact ⟨decode_of_encode_eq hl rfl rfl, decode_of_encode_eq hl rfl rfl, decode_of_encode_eq hl rfl rfl,
    decode_of_encode_eq hl rfl rfl, decode_of_encode_eq hl rfl rfl, decode_of_encode_eq hl rfl rfl,
    decode_of_encode_eq hl rfl rfl⟩

/-! ### The frames of an Ok operation -/

/-- The chip instruction a frame is headed by (R77). -/
def Frame.instr : Frame → Instr
  | .dcmd => .dataWriteAuto
  | .wdata a data => .addrSet a data
  | .disp b en => .dispCtrl b en
  | .scan => .dataReadKeys

/-- The packet of a frame's instruction is the frame: its bytes and its reads (R77). -/
theorem encode_frameInstr (l : CmdLayout) (f : Frame) : encode l f.instr = .frame (f.bytes l) f.reads := by
  cases f <;> rfl

/-- The lengths R77 allows a frame are those its instruction is well-formed with. -/
theorem frameInstr_wf (l : CmdLayout) (f : Frame) : f.instr.wf l = f.legal := by
  cases f <;> rfl

theorem frameInstr_kinds (f : Frame) : f.instr = .dataWriteAuto ∨ f.instr = .dataReadKeys ∨
    (∃ a data, f.instr = .addrSet a data) ∨ (∃ b en, f.instr = .dispCtrl b en) := by
  cases f <;> simp [Frame.instr]

/-- A trace made of complete frames of the block's four kinds, each with a length R77 allows. -/
def MadeOfFrames (l : CmdLayout) (es : List Event) : Prop :=
  ∃ fs : List Frame, (∀ f ∈ fs, f.legal = true) ∧ traceFrames es = some (fs.map fun f => encode l f.instr)

theorem madeOfFrames_nil (l : CmdLayout) : MadeOfFrames l [] := ⟨[], by simp, rfl⟩

theorem madeOfFrames_disp (l : CmdLayout) (b : BitVec 3) (en : Bool) :
    MadeOfFrames l ((Frame.disp b en).events l []) :=
  ⟨[.disp b en], by simp [Frame.legal], traceFrames_disp l b en⟩

theorem madeOfFrames_scan (l : CmdLayout) {reg : List Byte} (h : reg.length = scanBytes) :
    MadeOfFrames l (Frame.scan.events l reg) :=
  ⟨[.scan], by simp [Frame.legal], by rw [traceFrames_scan, h]; rfl⟩

theorem madeOfFrames_writeTrace (l : CmdLayout) {a : BitVec 4} {data : List Byte}
    (h : (Frame.wdata a data).legal = true) : MadeOfFrames l (writeTrace l a data) :=
  ⟨[.dcmd, .wdata a data], by simp [h, show Frame.dcmd.legal = true from rfl], traceFrames_writeTrace l a data⟩

/-- Every request that returns Ok adds complete frames of the four kinds to the trace, or nothing (R107, R185). -/
theorem exec_ok_madeOfFrames {i : Instr} {s t : State} {m : Option KeyMask} (hi : i.isRequest = true)
    (h : exec i s = .next t) (hr : t.reply = some { status := .ok, mask := m }) :
    ∃ es, t.bus.log = s.bus.log ++ es ∧ MadeOfFrames s.cfg.layout es := by
  by_cases hinit : ∃ w, i = .initDevice w
  · obtain ⟨w, rfl⟩ := hinit
    simp only [exec, execInitialize] at h
    obtain ⟨-, hbody⟩ := admit_eq_ok h hr
    cases hbody
    exact ⟨[], (List.append_nil _).symm, madeOfFrames_nil _⟩
  · obtain ⟨-, hend⟩ := exec_eq_ok hi (not_exists.mp hinit) h hr
    cases hend with
    | released => exact ⟨[], (List.append_nil _).symm, madeOfFrames_nil _⟩
    | disp b en _ _ ht => subst ht; exact ⟨_, rfl, madeOfFrames_disp _ _ _⟩
    | scan _ reg hlen _ _ ht => subst ht; exact ⟨_, rfl, madeOfFrames_scan _ hlen⟩
    | anode start ps => exact ⟨_, rfl, madeOfFrames_writeTrace _ (flush_frame_legal _)⟩
    | cathode start ps =>
      unfold cathodeResult
      split
      · exact ⟨[], (List.append_nil _).symm, madeOfFrames_nil _⟩
      · exact ⟨_, rfl, madeOfFrames_writeTrace _ (cathode_frame_legal ‹_›)⟩

/-- Settles O44: the added events are made of the block's frames, and O9 decodes each one to its instruction. -/
theorem onlyTheEmittedFrames : Obligations.OnlyTheEmittedFrames := by
  intro i s t m es ps hl hi h hr hlog hps p hp
  obtain ⟨es', hlog', fs, hlegal, hframes⟩ := exec_ok_madeOfFrames hi h hr
  obtain rfl : es = es' := List.append_cancel_left (hlog.symm.trans hlog')
  obtain rfl : ps = fs.map fun f => encode s.cfg.layout f.instr := Option.some.inj (hps.symm.trans hframes)
  obtain ⟨f, hf, rfl⟩ := List.mem_map.mp hp
  have hwf : f.instr.wf s.cfg.layout = true := (frameInstr_wf _ f).trans (hlegal f hf)
  exact ⟨f.instr, decodeUndoesEncode _ hl _ hwf, hwf, frameInstr_kinds f⟩

/-! ### The pseudo forms (R84) -/

/-- Two digit operations with the same start and the same patterns are the same operation. -/
theorem exec_eq_of_digitsOf_eq {i j : Instr} {s : State} {d : Nat × List Byte}
    (hi : digitsOf s.cfg.segLut i = some d) (hj : digitsOf s.cfg.segLut j = some d) : exec i s = exec j s := by
  rw [digitsOf_exec hi, digitsOf_exec hj]

/-- Settles O50: each pseudo form and its expansion have the same start and the same patterns. -/
theorem pseudoFormsAreTheirExpansions : Obligations.PseudoFormsAreTheirExpansions := fun _ =>
  ⟨fun _ _ => exec_eq_of_digitsOf_eq rfl rfl, fun _ _ _ => exec_eq_of_digitsOf_eq rfl rfl,
    fun _ _ => exec_eq_of_digitsOf_eq rfl rfl⟩

end Sys2Proof.Machine
end

section
/-! The family of spec/40_command_encoder.md: the fields of the instruction bytes, from what the laws say of each of their
bits, and the key scan on a transport that drops the bracket. -/

namespace Sys2Proof.Machine

/-! ### The fields of the data and the display-control instruction (R100, R102) -/

/-- A bit below the class that no field names is 0 (R72). -/
theorem dataInstr_other {l : CmdLayout} (rw am tm : Bool) {i : Fin 6} (hrw : i ≠ l.rwBit) (ham : i ≠ l.amBit)
    (htm : i ≠ l.tmBit) : (dataInstr l rw am tm).getLsbD i = false := by
  rw [ne_eq, Fin.ext_iff] at hrw ham htm
  rw [dataInstr_getLsbD _ _ _ _ _ (by omega)]
  simp [hrw, ham, htm, show ¬ 6 ≤ i.val by omega]

/-- Equal data instructions have equal operands, since each operand reads back from its bit (R100). -/
theorem dataInstr_injective {l : CmdLayout} (hl : l.ok = true) {rw am tm rw' am' tm' : Bool}
    (h : dataInstr l rw am tm = dataInstr l rw' am' tm') : rw = rw' ∧ am = am' ∧ tm = tm' := by
  obtain ⟨hrw, ham, htm⟩ := dataInstr_fields hl rw am tm
  obtain ⟨hrw', ham', htm'⟩ := dataInstr_fields hl rw' am' tm'
  rw [h] at hrw ham htm
  exact ⟨hrw.symm.trans hrw', ham.symm.trans ham', htm.symm.trans htm'⟩

/-- Settles O5: the class, the three fields and the other bits are those of `dataInstr`'s laws, and the fields give the
operands back. -/
theorem dataInstructionFields : Obligations.DataInstructionFields := by
  intro l hl rw am tm
  obtain ⟨hrw, ham, htm⟩ := dataInstr_fields hl rw am tm
  exact ⟨classOf_dataInstr l rw am tm, hrw, ham, htm, fun _ => dataInstr_other rw am tm,
    fun _ _ _ => dataInstr_injective hl⟩

/-- The brightness field holds the brightness modulo 8 (R83, R102). -/
theorem toNat_brightnessField (brightness : Nat) : (brightnessField brightness).toNat = brightness % 8 := by
  rw [brightnessField, BitVec.toNat_ofNat, Nat.mod_mod]

/-- A bit between the brightness and the class that is not the enable's is 0 (R74). -/
theorem dispInstr_other {l : CmdLayout} (brightness : Nat) (enabled : Bool) {i : Fin 6} (h3 : 3 ≤ i.val)
    (hon : i ≠ l.dispOnBit) : (dispInstr l brightness enabled).getLsbD i = false := by
  rw [ne_eq, Fin.ext_iff] at hon
  rw [dispInstr_getLsbD _ _ _ _ (by omega)]
  simp [hon, show ¬ 6 ≤ i.val by omega, show ¬ i.val < 3 by omega]

/-- Settles O7: each field and the other bits are those of `dispInstr`'s laws. -/
theorem displayInstructionFields : Obligations.DisplayInstructionFields := by
  intro l hl brightness enabled
  refine ⟨classOf_dispInstr l brightness enabled, ?_, dispInstr_on hl brightness enabled,
    fun _ => dispInstr_other brightness enabled⟩
  rw [dispInstr_low hl, toNat_brightnessField]

/-! ### A frame with reads on a transport that drops the bracket (R186) -/

/-- A call that is answered leaves everything but the transport, and that with the answers to come. -/
theorem txCall_serves {s : State} {n : Nat} (mk : Byte → Event) (htp : s.tp = .bound)
    (hs : s.bus.serves (n + 1) = true) : ∃ b bus, txCall mk s = .done b { s with bus := bus } ∧
      bus.serves n = true ∧ bus.keepsBracket = s.bus.keepsBracket := by
  rw [serves_succ, Bool.and_eq_true] at hs
  obtain ⟨hanswer, hrest⟩ := hs
  cases ha : s.bus.answer.1 with
  | fail => rw [ha] at hanswer; cases hanswer
  | ok b => exact ⟨b, _, txCall_ok htp ha, by simpa using hrest, by simp⟩

/-- Once its bytes are written, a frame with reads stops at the switch of direction. -/
theorem frameCalls_dropped {f : Frame} {s : State} (htp : s.tp = .bound) (hreads : f.reads ≠ 0)
    (hk : s.bus.keepsBracket = false) (hs : s.bus.serves ((f.bytes s.cfg.layout).length + 1) = true) :
    frameCalls f s = .refused .bracketDropped := by
  obtain ⟨b, bus, hbegin, hserves, hkeeps⟩ := txCall_serves (fun _ => .bracketBegin) htp hs
  have hwrite := runCalls_serves ((f.bytes s.cfg.layout).map fun b _ => Event.wr b) { s with bus := bus } htp
    (by rwa [List.length_map])
  rw [frameCalls, txBegin, hbegin, bind_done, writeBytes_runCalls, hwrite, bind_done, bind_done, turnAround,
    if_neg (by simp [hreads, hkeeps, hk]), bind_refused]

/-- Settles O37: the scan's frame writes one byte and reads four, so it stops by `frameCalls_dropped`. -/
theorem droppedBracketIsRefused : Obligations.DroppedBracketIsRefused := by
  rintro s ⟨hlife, htp, -⟩ hk hs
  have hcalls : frameCalls .scan s = .refused .bracketDropped := frameCalls_dropped htp (by decide) hk hs
  simp only [exec, execScanKeys, admit_pos hlife, scanRead, sendFrame, hcalls, bind_refused, finish]

end Sys2Proof.Machine
end

section
/-! The SegmentDecoder (R120-R125): what it recognises, the pattern of a recognised and of another value, and the decimal
point apart from both. -/

namespace Sys2Proof.Machine

/-! ### HexIndex (R121) -/

/-- Settles O11: the branches of `hexIndex` are the numbers, the upper case and the lower case letters. -/
theorem hexIndexRecognises : Obligations.HexIndexRecognises := by
  intro v i
  have hi := i.isLt
  unfold hexIndex
  split_ifs with hnumber hupper hlower
  all_goals simp only [Option.some.injEq, Fin.ext_iff, Fin.val_ofNat, false_iff]
  all_goals omega

/-! ### SegEncode (R122) -/

/-- The decimal point as a byte. -/
theorem bitField_seven (d : Bool) : bitField 7 d = if d then 0x80#8 else 0x00#8 := by
  cases d <;> rfl

/-- An unrecognised value gives the blank pattern (R122). -/
theorem segEncode_of_none (lut : Vector Byte 16) {v : BitVec 7} (d : Bool) (h : hexIndex v = none) :
    segEncode lut (rawHex v d) = bitField 7 d := by
  rw [segEncode_rawHex, h]
  exact BitVec.zero_or

/-- A recognised value gives the table's entry (R122). -/
theorem segEncode_of_some (lut : Vector Byte 16) {v : BitVec 7} (d : Bool) {i : Fin 16} (h : hexIndex v = some i) :
    segEncode lut (rawHex v d) = lut[i] ||| bitField 7 d := by
  rw [segEncode_rawHex, h]

/-- Settles O14: the two cases of `hexIndex`, and the count by evaluation of the 128 values. -/
theorem segmentDecoderIsTotal : Obligations.SegmentDecoderIsTotal := by
  refine ⟨fun lut v d h => ?_, fun lut v d i h => ?_, by decide⟩
  · rw [segEncode_of_none lut d h, bitField_seven]
  · rw [segEncode_of_some lut d h, bitField_seven]

/-- The number and both letters of an index of 10 or more give its entry (R121, R123). -/
theorem segEncode_of_letter (lut : Vector Byte 16) (d : Bool) {i n : Nat} (h10 : 10 ≤ i) (h15 : i ≤ 15)
    (hn : n = i ∨ n = i + 0x37 ∨ n = i + 0x57) :
    segEncode lut (rawHex (BitVec.ofNat 7 n) d) = lut[i] ||| bitField 7 d := by
  have hv : (BitVec.ofNat 7 n).toNat = n := by rw [BitVec.toNat_ofNat]; omega
  have hindex : hexIndex (BitVec.ofNat 7 n) = some ⟨i, by omega⟩ :=
    (hexIndexRecognises _ _).mpr (by rw [hv]; exact hn.imp_right fun hletter => ⟨h10, hletter⟩)
  exact segEncode_of_some lut d hindex

/-- Settles O12: the number and both letters give one entry, by `segEncode_of_letter`. -/
theorem hexLettersFoldCase : Obligations.HexLettersFoldCase := by
  intro lut d i h10 h15
  have hpattern := fun n => segEncode_of_letter lut d (n := n) h10 h15
  rw [hpattern i (.inl rfl), hpattern _ (.inr (.inl rfl)), hpattern _ (.inr (.inr rfl))]
  exact ⟨rfl, rfl⟩

/-! ### The decimal point (R124) -/

/-- A table entry of a legal configuration has bit 7 = 0 (R120). -/
theorem segLut_getLsbD_seven {c : Config} (h : c.ok = true) (i : Fin 16) : c.segLut[i].getLsbD 7 = false := by
  obtain ⟨-, hentries⟩ := Bool.and_eq_true_iff.mp h
  simpa using List.all_eq_true.mp hentries c.segLut[i] (by simp)

/-- The decimal point is added to the pattern without it, whatever the value and the table are (R124). -/
theorem segEncode_point (lut : Vector Byte 16) (v : BitVec 7) (d : Bool) :
    segEncode lut (rawHex v d) = segEncode lut (rawHex v false) ||| bitField 7 d := by
  rw [segEncode_rawHex, segEncode_rawHex, bitField_seven false, if_neg Bool.false_ne_true, BitVec.or_zero]

/-- Settles O13: `segEncode_point`, and a pattern without the point is blank or an entry. -/
theorem decimalPointIsOrthogonal : Obligations.DecimalPointIsOrthogonal := by
  intro c hc v
  refine ⟨segEncode_point c.segLut v true, ?_⟩
  cases h : hexIndex v with
  | none => rw [segEncode_of_none _ _ h]; rfl
  | some i =>
    rw [segEncode_of_some _ _ h, BitVec.getLsbD_or, segLut_getLsbD_seven hc]
    rfl

end Sys2Proof.Machine
end

section
/-! The family of spec/42_display_register_map.md (R140-R148): which cells a digit position has, and what an update of
digits writes, keeps and reads back. -/

namespace Sys2Proof.Machine

/-! ### The place of a position (R141) -/

/-- Settles O15: the three cases of `anodeLocate_cases`, whose ranges exclude each other. -/
theorem anodePositionsLocate : Obligations.AnodePositionsLocate := by
  intro p
  rcases anodeLocate_cases p with ⟨h7, hplace⟩ | ⟨h8, h9, hplace⟩ | ⟨h10, hnone⟩
  · exact ⟨fun _ => hplace, by omega, by omega⟩
  · exact ⟨by omega, fun _ _ => hplace, by omega⟩
  · exact ⟨by omega, by omega, fun _ => hnone⟩

theorem anodeLocate_of_le_nine {p : Nat} (h : p ≤ 9) : ∃ g o, anodeLocate p = some (g, o) := by
  obtain ⟨hfirst, hsecond, -⟩ := anodePositionsLocate p
  by_cases h7 : p ≤ 7
  · obtain ⟨o, hp, -⟩ := hfirst h7
    exact ⟨0, o, hp⟩
  · obtain ⟨o, hp, -⟩ := hsecond (by omega) h
    exact ⟨1, o, hp⟩

/-- Group 0 has a position for every offset, group 1 for offsets 0 and 1 only (R141). -/
theorem exists_anodeLocate_iff (g : Fin 2) (o : Fin 8) :
    (∃ p, anodeLocate p = some (g, o)) ↔ g = 0 ∨ o.val < 2 := by
  constructor
  · rintro ⟨p, hp⟩
    rcases anodeLocate_cases p with ⟨-, o', e, -⟩ | ⟨-, h9, o', e, ho⟩ | ⟨-, e⟩
    · cases hp.symm.trans e
      exact .inl rfl
    · cases hp.symm.trans e
      exact .inr (by omega)
    · cases hp.symm.trans e
  · intro h
    by_cases hg : g = 0
    · obtain ⟨hfirst, -, -⟩ := anodePositionsLocate o
      obtain ⟨o', hp, ho⟩ := hfirst (by omega)
      exact ⟨o, hg ▸ Fin.ext ho ▸ hp⟩
    · have ho2 : o.val < 2 := h.resolve_left hg
      have hg1 : g = 1 := by omega
      obtain ⟨-, hsecond, -⟩ := anodePositionsLocate (o + 8)
      obtain ⟨o', hp, ho⟩ := hsecond (by omega) (by omega)
      have hoff : o' = o := by omega
      exact ⟨o + 8, hg1 ▸ hoff ▸ hp⟩

/-- The registers of group 0 are the even ones (R142). -/
theorem registerIndex_even_iff (s : Fin 8) (g : Fin 2) : (registerIndex s g).val % 2 = 0 ↔ g = 0 := by
  simp only [registerIndex]
  omega

/-- The ten digits cover the even bytes and bits 1:0 of the odd bytes (R147). -/
theorem cell_covered_iff (r : Fin 16) (b : Fin 8) :
    (∃ p g o, ∃ s : Fin 8, anodeLocate p = some (g, o) ∧ registerIndex s g = r ∧ o = b) ↔
      (r.val % 2 = 0 ∨ b.val < 2) := by
  obtain ⟨s, g, rfl⟩ := registerIndex_surj r
  rw [registerIndex_even_iff, ← exists_anodeLocate_iff]
  constructor
  · rintro ⟨p, g', o, s', hp, hr, rfl⟩
    obtain ⟨-, rfl⟩ := registerIndex_inj.mp hr
    exact ⟨p, hp⟩
  · rintro ⟨p, hp⟩
    exact ⟨p, g, b, s, hp, rfl, rfl⟩

/-- Two positions share no cell (R147). -/
theorem cell_ne_of_ne {p q : Nat} {gp gq : Fin 2} {op oq : Fin 8} (hne : p ≠ q) (hp : anodeLocate p = some (gp, op))
    (hq : anodeLocate q = some (gq, oq)) (s s' : Fin 8) : (registerIndex s gp, op) ≠ (registerIndex s' gq, oq) := by
  intro hcell
  obtain ⟨hr, rfl⟩ := Prod.mk.inj hcell
  obtain ⟨-, rfl⟩ := registerIndex_inj.mp hr
  exact hne (anodeLocate_inj hp hq)

/-! ### What a digit reads back (R148) -/

theorem readback_of_ten_le {p : Nat} (h : 10 ≤ p) (sh : Vector Byte 16) : readback p sh = none := by
  obtain ⟨-, -, hnone⟩ := anodePositionsLocate p
  rw [readback, hnone h]

theorem zeroShadow_getElem (r : Fin 16) : zeroShadow[r] = 0#8 := by
  simp [zeroShadow]

theorem readback_zeroShadow {p : Nat} (h : p ≤ 9) : readback p zeroShadow = some 0#8 := by
  obtain ⟨g, o, hp⟩ := anodeLocate_of_le_nine h
  obtain ⟨b, hb, hbits⟩ := readback_getLsbD hp zeroShadow
  have hzero : b = 0#8 := byte_ext fun s => by simp only [hbits, zeroShadow_getElem, BitVec.getLsbD_zero]
  rw [hb, hzero]

/-! ### The obligations of tier 2 -/

/-- Settles O16: a position without a place is skipped, and the bits after a written one are `transposeDigit_getLsbD`. -/
theorem transposeWritesOneDigit : Obligations.TransposeWritesOneDigit := fun _ pattern sh =>
  ⟨fun hnone => transposeDigit_none hnone pattern sh, fun _ _ hplace => transposeDigit_getLsbD hplace pattern sh⟩

/-- Settles O17: the cells by `cell_ne_of_ne` and `cell_covered_iff`; distinct cells keep the other digits, and digits
that commute make an update idempotent. -/
theorem digitsAreDisjoint : Obligations.DigitsAreDisjoint :=
  ⟨fun _ _ _ _ _ _ => cell_ne_of_ne, cell_covered_iff, fun _ _ => readback_transpose_ne, updateDigits_idem⟩

/-- Settles O18: a position 0-9 has a place, whose bits are those written there. -/
theorem digitsReadBack : Obligations.DigitsReadBack := by
  refine ⟨fun p pattern sh h => ?_, fun _ => readback_zeroShadow, fun _ sh h => readback_of_ten_le h sh⟩
  obtain ⟨g, o, hp⟩ := anodeLocate_of_le_nine h
  exact readback_transpose_self hp pattern sh

/-- Settles O19: the digits inside the update, the digits outside it, and an update that starts past position 9. -/
theorem updateWritesEachDigit : Obligations.UpdateWritesEachDigit := fun _ pats sh =>
  ⟨fun _ => readback_update_inside pats sh, fun _ => readback_update_outside pats sh, fun h => updateDigits_far h pats sh⟩

end Sys2Proof.Machine
end

section
/-! The family of spec/43_key_scan_decoder.md (R160-R163): which scan bit each mask bit is, and the inverse of the
decoder. -/

namespace Sys2Proof.Machine

/-! ### The mask bits (R160) -/

/-- What a fold leaves in bit `i` when its steps write `x` there or keep it: `x` if some step of the list writes. -/
theorem foldl_writes_getLsbD {α : Type} {f : KeyMask → α → KeyMask} {i : Nat} {x : Bool} {p : α → Prop}
    [DecidablePred p] (hf : ∀ m a, (f m a).getLsbD i = if p a then x else m.getLsbD i) (as : List α) (m : KeyMask) :
    (as.foldl f m).getLsbD i = if ∃ a ∈ as, p a then x else m.getLsbD i := by
  induction as generalizing m with
  | nil => simp
  | cons a as ih =>
    rw [List.foldl_cons, ih, hf]
    by_cases ha : p a <;> simp [ha]

theorem mem_scanBytes : ∀ r : Fin 4, r ∈ ([0, 1, 2, 3] : List (Fin 4)) := by decide

theorem mem_keyLines : ∀ l : Fin 3, l ∈ ([0, 1, 2] : List (Fin 3)) := by decide

/-- A mask bit that line `l` of byte `r`, and no other pair, writes with `x` is `x` in the result (R160: every bit is
written exactly once). -/
theorem keyDecode_getLsbD {reg : Vector Byte 4} {i : Nat} {x : Bool} {r : Fin 4} {l : Fin 3}
    (hline : ∀ m r' l', (maskLine reg r' m l').getLsbD i = if r = r' ∧ l = l' then x else m.getLsbD i) :
    (keyDecode reg).getLsbD i = x := by
  have hbyte : ∀ m r', (([0, 1, 2] : List (Fin 3)).foldl (maskLine reg r') m).getLsbD i =
      if r = r' then x else m.getLsbD i := by
    intro m r'
    rw [foldl_writes_getLsbD fun m l' => hline m r' l']
    have hwritten : (∃ l' ∈ ([0, 1, 2] : List (Fin 3)), r = r' ∧ l = l') ↔ r = r' :=
      ⟨fun ⟨_, _, hr, _⟩ => hr, fun hr => ⟨l, mem_keyLines l, hr, rfl⟩⟩
    simp only [hwritten]
  rw [keyDecode, foldl_writes_getLsbD hbyte, if_pos ⟨r, mem_scanBytes r, rfl⟩]

theorem keyDecode_even (reg : Vector Byte 4) (r : Fin 4) (l : Fin 3) :
    (keyDecode reg).getLsbD (l.val * 8 + 2 * r.val) = reg[r].getLsbD l.val :=
  keyDecode_getLsbD fun m r' l' => (maskLine_even reg r' m l' r l).trans <|
    if_ctx_congr Iff.rfl (fun ⟨hr, hl⟩ => by rw [hr, hl]) fun _ => rfl

theorem keyDecode_odd (reg : Vector Byte 4) (r : Fin 4) (l : Fin 3) :
    (keyDecode reg).getLsbD (l.val * 8 + 2 * r.val + 1) = reg[r].getLsbD (l.val + 4) :=
  keyDecode_getLsbD fun m r' l' => (maskLine_odd reg r' m l' r l).trans <|
    if_ctx_congr Iff.rfl (fun ⟨hr, hl⟩ => by rw [hr, hl]) fun _ => rfl

/-- Settles O20: the even and the odd bits of the mask, `keyDecode_even` and `keyDecode_odd`. -/
theorem keyDecodeBits : Obligations.KeyDecodeBits := fun reg r line =>
  ⟨keyDecode_even reg r line, keyDecode_odd reg r line⟩

/-! ### The inverse (R163) -/

/-- A mask is the mask of a scan exactly when its bits are the used bits of that scan. -/
theorem keyDecode_eq_iff (reg : Vector Byte 4) (m : KeyMask) : keyDecode reg = m ↔ ∀ (r : Fin 4) (l : Fin 3),
    reg[r].getLsbD l.val = m.getLsbD (l.val * 8 + 2 * r.val) ∧
    reg[r].getLsbD (l.val + 4) = m.getLsbD (l.val * 8 + 2 * r.val + 1) := by
  constructor
  · rintro rfl r l
    exact ⟨(keyDecode_even reg r l).symm, (keyDecode_odd reg r l).symm⟩
  · intro h
    refine mask_ext fun r l => ?_
    rw [keyDecode_even, keyDecode_odd]
    exact h r l

/-- The used bits of the scan that `keyEncode` makes, one key line at a time. -/
theorem keyEncode_getLsbD (m : KeyMask) (r : Fin 4) (l : Fin 3) :
    (keyEncode m)[r].getLsbD l.val = m.getLsbD (l.val * 8 + 2 * r.val) ∧
    (keyEncode m)[r].getLsbD (l.val + 4) = m.getLsbD (l.val * 8 + 2 * r.val + 1) := by
  match l with
  | 0 => simp [keyEncode, bitField_getLsbD, -BitVec.getLsbD_eq_getElem]
  | 1 => simp [keyEncode, bitField_getLsbD, Nat.add_assoc, -BitVec.getLsbD_eq_getElem]
  | 2 => simp [keyEncode, bitField_getLsbD, Nat.add_assoc, -BitVec.getLsbD_eq_getElem]

/-- Settles O21: both halves are `keyDecode_eq_iff`, the first against another scan's mask, the second against the mask
that `keyEncode` takes apart. -/
theorem keyDecodeIsABijection : Obligations.KeyDecodeIsABijection := by
  refine ⟨fun reg reg' => ?_, fun m => (keyDecode_eq_iff _ m).mpr (keyEncode_getLsbD m)⟩
  rw [keyDecode_eq_iff]
  simp only [keyDecode_even, keyDecode_odd]

end Sys2Proof.Machine
end

section
/-! The family of spec/44_transport_interface.md (R180-R188): the bits of a byte on the wire, the events of written
bytes, an update of digits cut by a failing call, the frames of an Ok operation, and that the realisation of the
transport makes no difference. -/

namespace Sys2Proof.Machine

/-! ### The bit sequencer (R181) -/

/-- Place `k` of a byte on the wire is its bit `k`. -/
theorem serialize_getElem? (b : Byte) (k : Fin 8) : (serialize b)[k.val]? = some (b.getLsbD k) := by
  match k with
  | 0 | 1 | 2 | 3 | 4 | 5 | 6 | 7 => rfl

theorem serialize_length (b : Byte) : (serialize b).length = 8 := rfl

/-- Bit `k` of the byte is what arrived at place `k`, and 0 where nothing arrived. -/
theorem deserialize_getLsbD (q : List Bool) {k : Nat} (hk : k < 8) :
    (deserialize q).getLsbD k = q[k]?.getD false := by
  induction q generalizing k with
  | nil => simp [deserialize]
  | cons x xs ih =>
    rw [deserialize, BitVec.getLsbD_or, bitField_getLsbD 0 k x (by decide), BitVec.getLsbD_shiftLeft]
    cases k with
    | zero => simp
    | succ k => simp [ih (k := k) (by omega), hk]

theorem deserialize_serialize (b : Byte) : deserialize (serialize b) = b := by
  apply BitVec.eq_of_getLsbD_eq
  intro k hk
  rw [deserialize_getLsbD _ hk, serialize_getElem? b ⟨k, hk⟩, Option.getD_some]

theorem serialize_deserialize {q : List Bool} (hq : q.length = 8) : serialize (deserialize q) = q := by
  refine List.ext_getElem? fun k => ?_
  by_cases hk : k < 8
  · have hsome : q[k]? = some q[k] := List.getElem?_eq_getElem (by omega)
    rw [serialize_getElem? _ ⟨k, hk⟩, deserialize_getLsbD q hk, hsome, Option.getD_some]
  · rw [List.getElem?_eq_none (by rw [serialize_length]; omega), List.getElem?_eq_none (by omega)]

/-- Settles O22: the places are `serialize_getElem?`, and either function undoes the other bit by bit. -/
theorem bytesCrossTheWireLowBitFirst : Obligations.BytesCrossTheWireLowBitFirst :=
  ⟨serialize_getElem?, fun b => ⟨serialize_length b, deserialize_serialize b⟩, fun _ => serialize_deserialize⟩

/-! ### The events of written bytes (R182, R184) -/

/-- The events of write calls are the bytes written, whatever the calls were answered. -/
theorem callEvents_wr {bs as : List Byte} (h : as.length = bs.length) :
    callEvents (bs.map fun b _ => .wr b) as = bs.map .wr := by
  induction bs generalizing as with
  | nil => rfl
  | cons b bs ih =>
    cases as with
    | nil => cases h
    | cons a as => exact congrArg (Event.wr b :: ·) (ih (Nat.succ.inj h))

theorem writeBytes_serves {bs : List Byte} {s : State} (htp : s.tp = .bound) (hs : s.bus.serves bs.length = true) :
    writeBytes bs s = .done () (s.afterCalls bs.length (bs.map .wr)) := by
  have hcalls := runCalls_serves (bs.map fun b _ => Event.wr b) s htp (by rwa [List.length_map])
  rw [List.length_map, callEvents_wr (answers_length hs)] at hcalls
  rw [writeBytes_runCalls, hcalls, bind_done]

theorem writeBytes_failsAt {bs : List Byte} {s : State} {k : Nat} (htp : s.tp = .bound) (hk : k < bs.length)
    (hf : s.bus.failsAt k = true) :
    writeBytes bs s = .failed (s.afterCalls (k + 1) ((bs.take k).map .wr)) := by
  have hcalls := runCalls_failsAt (bs.map fun b _ => Event.wr b) s k htp (by rwa [List.length_map]) hf
  have hlength : (s.bus.answers k).length = (bs.take k).length := by
    rw [answers_length (failsAt_serves hf le_rfl), List.length_take_of_le hk.le]
  rw [← List.map_take, callEvents_wr hlength] at hcalls
  rw [writeBytes_runCalls, hcalls, bind_failed]

/-- Settles O23: both ends are those of a list of write calls. -/
theorem writeBytesRecordsEachByte : Obligations.WriteBytesRecordsEachByte := fun _ _ htp =>
  ⟨fun hs => ⟨_, writeBytes_serves htp hs, rfl, rfl⟩,
    fun _ hk hf => ⟨_, writeBytes_failsAt htp hk hf, rfl, rfl⟩⟩

/-! ### A failed update of digits (R184, R241, R248) -/

/-- Settles O34: the operation ends as `writeDigits_failsAt` says, and cutting the observer's frame touches none of
these fields. -/
theorem failedUpdateKeepsItsPrefix : Obligations.FailedUpdateKeepsItsPrefix := by
  rintro s i start pats k ⟨hlife, htp, -⟩ hd hk hf
  have hexec := digitsOf_exec hd
  rw [admit_pos hlife, writeDigits_failsAt htp hk hf, plain_failed] at hexec
  exact ⟨_, hexec, rfl, rfl, rfl, rfl, rfl, rfl, rfl, rfl⟩

/-! ### The frames of an Ok operation (R185) -/

/-- Settles O43: the added events are made of the block's frames. -/
theorem okTraceIsCompleteFrames : Obligations.OkTraceIsCompleteFrames := by
  intro i s t m hi h hr
  obtain ⟨es, hlog, fs, -, hframes⟩ := exec_ok_madeOfFrames hi h hr
  exact ⟨es, _, hlog, hframes⟩

/-! ### The realisation of the transport (R187) -/

/-- The state with another realisation of the transport. -/
def State.withKind (k : TransportKind) (s : State) : State := { s with bus := { s.bus with kind := k } }

section
variable (k : TransportKind)

theorem sendFrame_withKind (f : Frame) (s : State) :
    sendFrame f (s.withKind k) = (sendFrame f s).mapState (State.withKind k) := by
  have hcalls : frameCalls f (s.withKind k) = (frameCalls f s).mapState (State.withKind k) :=
    (callSim_kind k).frameCalls f s
  unfold sendFrame
  rw [hcalls]
  cases frameCalls f s with
  | done answers t =>
    have hchip : (t.withKind k).chip = t.chip := rfl
    simp only [Run.mapState, hchip]
    cases t.chip.consume f <;> rfl
  | failed t => rfl
  | faulted e => rfl
  | refused r => rfl

theorem writeRegs_withKind (a : BitVec 4) (data : List Byte) (s : State) :
    writeRegs a data (s.withKind k) = (writeRegs a data s).mapState (State.withKind k) := by
  unfold writeRegs
  rw [sendFrame_withKind]
  refine bind_mapState _ _ _ _ fun _ t => ?_
  rw [sendFrame_withKind]
  exact bind_mapState _ _ _ _ fun _ _ => rfl

theorem dispCtrl_withKind (b : Nat) (en : Bool) (s : State) :
    dispCtrl b en (s.withKind k) = (dispCtrl b en s).mapState (State.withKind k) := by
  unfold dispCtrl
  rw [sendFrame_withKind]
  exact bind_mapState _ _ _ _ fun _ _ => rfl

theorem scanRead_withKind (s : State) :
    scanRead (s.withKind k) = (scanRead s).mapState (State.withKind k) := by
  unfold scanRead
  rw [sendFrame_withKind]
  exact bind_mapState _ _ _ _ fun _ _ => rfl

theorem cathodeWrite_withKind (start : Nat) (ps : List Byte) (s : State) :
    cathodeWrite start ps (s.withKind k) = (cathodeWrite start ps s).mapState (State.withKind k) := by
  simp only [cathodeWrite]
  split
  · rfl
  · exact writeRegs_withKind k _ _ s

theorem writeDigits_withKind (start : Nat) (ps : List Byte) (s : State) :
    writeDigits start ps (s.withKind k) = (writeDigits start ps s).mapState (State.withKind k) := by
  rcases wiring_cases s with hw | hw | hw
  · rw [writeDigits_unset hw, writeDigits_unset (s := s.withKind k) hw]
    rfl
  · rw [(writeDigits_cathode hw start ps).1, (writeDigits_cathode (s := s.withKind k) hw start ps).1]
    exact cathodeWrite_withKind k start ps s
  · rw [(writeDigits_anode hw start ps).1, (writeDigits_anode (s := s.withKind k) hw start ps).1]
    exact writeRegs_withKind k 0 _ { s with sh := updateDigits start ps s.sh }

theorem finish_withKind (r : Run (Option KeyMask)) :
    finish (r.mapState (State.withKind k)) = mapOutcome (State.withKind k) (finish r) := by
  cases r <;> rfl

theorem plain_withKind (r : Run Unit) :
    plain (r.mapState (State.withKind k)) = mapOutcome (State.withKind k) (plain r) := by
  cases r <;> rfl

/-- The observer does not see the realisation: a frame from the bus has the same effect (R54). -/
theorem observeFrame_withKind (f : Frame) (s : State) :
    observeFrame f (s.withKind k) = mapOutcome (State.withKind k) (observeFrame f s) := by
  have hchip : (s.withKind k).chip = s.chip := rfl
  simp only [observeFrame, hchip]
  cases s.chip.consume f <;> rfl

/-- A data instruction is read at the layout alone (R72). -/
theorem execDataGeneric_withKind (rw am tm : Bool) (s : State) :
    execDataGeneric rw am tm (s.withKind k) = mapOutcome (State.withKind k) (execDataGeneric rw am tm s) := by
  have hcfg : (s.withKind k).cfg = s.cfg := rfl
  simp only [execDataGeneric, hcfg]
  cases dataFrame s.cfg.layout rw am tm with
  | ok f => exact observeFrame_withKind k f s
  | error e => rfl

/-- Admission reads the lifecycle alone (R200). -/
theorem ifAdmitted_withKind {need : Life} {body body' : State → Host.Outcome State Fault Refusal} {s : State}
    (h : body (s.withKind k) = mapOutcome (State.withKind k) (body' s)) :
    ifAdmitted need body (s.withKind k) = mapOutcome (State.withKind k) (ifAdmitted need body' s) := by
  by_cases hl : s.life = need
  · rw [admit_pos hl, admit_pos (s := s.withKind k) hl, h]
  · rw [admit_neg hl, admit_neg (s := s.withKind k) hl]
    rfl

/-- No instruction reads the realisation of the transport. -/
theorem exec_withKind (i : Instr) (s : State) :
    exec i (s.withKind k) = mapOutcome (State.withKind k) (exec i s) := by
  have digits : ∀ start ps, digitsOf s.cfg.segLut i = some (start, ps) →
      exec i (s.withKind k) = mapOutcome (State.withKind k) (exec i s) := by
    intro start ps hd
    rw [digitsOf_exec hd, digitsOf_exec (s := s.withKind k) hd]
    refine ifAdmitted_withKind k ?_
    rw [writeDigits_withKind, plain_withKind]
  cases i with
  | dataWriteAuto => exact observeFrame_withKind k .dcmd s
  | dataReadKeys => exact observeFrame_withKind k .scan s
  | dataWriteFixed => rfl
  | dataGeneric rw am tm => exact execDataGeneric_withKind k rw am tm s
  | addrSet a data => exact observeFrame_withKind k (.wdata a data) s
  | dispCtrl b en => exact observeFrame_withKind k (.disp b en) s
  | class00 low => rfl
  | initDevice w =>
    simp only [exec, execInitialize]
    exact ifAdmitted_withKind k rfl
  | configureDisplay b en =>
    simp only [exec, execConfigureDisplay]
    refine ifAdmitted_withKind k ?_
    rw [dispCtrl_withKind, plain_withKind]
  | setDigit p x => exact digits _ _ rfl
  | setDigits p xs => exact digits _ _ rfl
  | setDigitHex p v d => exact digits _ _ rfl
  | setDigitsHex p items => exact digits _ _ rfl
  | scanKeys =>
    simp only [exec, execScanKeys]
    refine ifAdmitted_withKind k ?_
    rw [scanRead_withKind, ← finish_withKind]
    exact congrArg finish (bind_mapState _ _ _ _ fun _ _ => rfl)
  | shutdown =>
    simp only [exec, execShutdown]
    exact ifAdmitted_withKind k rfl
  | reservedTag low ops => rfl

end

/-- Settles O47: putting another realisation into the state commutes with every instruction, `exec_withKind`. -/
theorem theRealisationDoesNotMatter : Obligations.TheRealisationDoesNotMatter := fun i s k => exec_withKind k i s

end Sys2Proof.Machine
end

section
/-! The family of spec/45_device_operations.md (R201-R208): what each request does on a block that admits it, with its
transport calls answered. -/

namespace Sys2Proof.Machine

/-! ### The operations without a transport call (R201, R208) -/

/-- Settles O24: an Unbound block admits the request, whose body writes these fields. -/
theorem initializeCompletes : Obligations.InitializeCompletes := by
  intro w s hlife
  simp only [exec, execInitialize]
  exact admit_pos hlife

/-- Settles O29: a Ready block admits the request, whose body writes these fields. -/
theorem shutdownCompletes : Obligations.ShutdownCompletes := by
  intro s hlife
  simp only [exec, execShutdown]
  exact admit_pos hlife

/-! ### The display-control frame and the key scan (R202, R207) -/

theorem disp_events (l : CmdLayout) (brightness : Nat) (en : Bool) :
    (Frame.disp (brightnessField brightness) en).events l [] =
      [.bracketBegin, .wr (dispInstr l brightness en), .bracketEnd] := by
  rw [← dispInstr_brightnessField]
  rfl

theorem scan_events (l : CmdLayout) (a b c d : Byte) : Frame.scan.events l [a, b, c, d] =
    [.bracketBegin, .wr (cmdRead l), .rd a, .rd b, .rd c, .rd d, .bracketEnd] := rfl

/-- Settles O25: the block admits the request, and its one frame goes through. -/
theorem configureDisplayCompletes : Obligations.ConfigureDisplayCompletes := by
  rintro brightness enabled s ⟨hlife, htp, -⟩ hs
  simp only [exec, execConfigureDisplay]
  rw [admit_pos hlife, dispCtrl_serves htp hs, plain_done, disp_events]
  rfl

/-- Settles O28: the block admits the request, and its one frame goes through with the four bytes read. -/
theorem scanKeysCompletes : Obligations.ScanKeysCompletes := by
  rintro s a b c d ⟨hlife, htp, -⟩ hkeeps hs hreads
  have hscan := scanRead_serves htp hkeeps hs
  simp only [hreads, scan_events] at hscan
  simp only [exec, execScanKeys]
  rw [admit_pos hlife, hscan]
  rfl

/-! ### The digit operations under either wiring (R203-R206) -/

/-- Each of the four digit operations on a Ready block is its update of digits, which replies Ok when it goes
through. -/
theorem exec_digits_ready {i : Instr} {s t : State} {start : Nat} {ps : List Byte} (hlife : s.life = .ready)
    (hd : digitsOf s.cfg.segLut i = some (start, ps))
    (h : ∃ u, writeDigits start ps s = .done () u ∧ u.respond .ok none = t) : exec i s = .next t := by
  obtain ⟨u, hwrite, hend⟩ := h
  rw [digitsOf_exec hd, admit_pos hlife, hwrite, plain_done, hend]

/-! ### Under CommonAnode (R144, R145) -/

/-- Settles O26: each operation is an update of digits, which under CommonAnode is the anode write. -/
theorem anodeUpdatesComplete : Obligations.AnodeUpdatesComplete := by
  intro s hlife htp hw hs
  have hupdate {i : Instr} {start : Nat} {ps : List Byte} (hd : digitsOf s.cfg.segLut i = some (start, ps)) :
      exec i s = .next (anodeResult start ps s) := by
    obtain ⟨hpath, -⟩ := writeDigits_anode hw start ps
    exact exec_digits_ready hlife hd (hpath ▸ anodeWrite_serves htp hs)
  exact ⟨fun _ _ => hupdate rfl, fun _ _ => hupdate rfl, fun _ _ _ => hupdate rfl, fun _ _ => hupdate rfl⟩

/-! ### Under CommonCathode (R146) -/

/-- No digit lies in 0-15 exactly from a start past 15 or without a digit. -/
theorem cathodeCount_eq_zero_iff {start n : Nat} : cathodeCount start n = 0 ↔ 16 ≤ start ∨ n = 0 := by
  by_cases h : start < 16
  · rw [cathodeCount_of_lt h]; omega
  · rw [cathodeCount_of_ge (by omega)]; omega

/-- The patterns in range are the first `16 - start`. -/
theorem take_cathodeCount {start : Nat} (h : start < 16) (ps : List Byte) :
    ps.take (cathodeCount start ps.length) = ps.take (16 - start) := by
  rw [cathodeCount_of_lt h, Nat.min_comm, ← List.take_eq_take_min]

theorem digitsCalls_cathode {s : State} (hw : s.wiring = some .commonCathode) (start : Nat) (ps : List Byte) :
    digitsCalls start ps s =
      if cathodeCount start ps.length = 0 then 0 else 6 + cathodeCount start ps.length := by
  obtain ⟨-, -, hcalls, -⟩ := writeDigits_cathode hw start ps
  exact hcalls

theorem cathodeResult_of_count_zero {start : Nat} {ps : List Byte} (h : cathodeCount start ps.length = 0) (s : State) :
    cathodeResult start ps s = s.respond .ok none := if_pos h

theorem cathodeResult_of_count_ne_zero {start : Nat} {ps : List Byte} (h : cathodeCount start ps.length ≠ 0)
    (s : State) :
    cathodeResult start ps s = s.written (BitVec.ofNat 4 start) (ps.take (16 - start)) := by
  obtain ⟨hstart, -⟩ := cathode_legal h
  rw [cathodeResult, if_neg h, take_cathodeCount hstart]

@[simp] theorem written_log (s : State) (a : BitVec 4) (data : List Byte) :
    (s.written a data).bus.log = s.bus.log ++ writeTrace s.cfg.layout a data := rfl

/-- The registers after a cathode update: a pattern where one falls, and elsewhere what was there. -/
theorem cathodeResult_dr_getElem (start : Nat) (ps : List Byte) (s : State) (r : Nat) (hr : r < 16) :
    (cathodeResult start ps s).chip.dr[r] =
      if h : start ≤ r ∧ r < start + ps.length then ps[r - start] else s.chip.dr[r] := by
  by_cases hm : cathodeCount start ps.length = 0
  · have hout : ¬(start ≤ r ∧ r < start + ps.length) := by
      rw [cathodeCount_eq_zero_iff] at hm
      omega
    rw [dif_neg hout]
    simp only [cathodeResult_of_count_zero hm, respond_chip]
  · obtain ⟨hstart, -⟩ := cathode_legal hm
    have hreg : (BitVec.ofNat 4 start).toNat = start := by rw [BitVec.toNat_ofNat]; omega
    have hin : r < start + min (16 - start) ps.length ↔ r < start + ps.length := by omega
    simp only [cathodeResult_of_count_ne_zero hm, written_dr, writeRun_getElem _ _ _ _ hr, hreg, List.length_take,
      List.getElem_take, hin]

/-- Settles O27: each operation is an update of digits, which under CommonCathode is the cathode write; the plain
numbers are those of `cathodeCount`, and the registers are `cathodeResult_dr_getElem`. -/
theorem cathodeUpdatesComplete : Obligations.CathodeUpdatesComplete := by
  intro s hlife htp hw
  have hupdate {i : Instr} {start : Nat} {ps : List Byte} (hd : digitsOf s.cfg.segLut i = some (start, ps))
      (hs : s.bus.serves (digitsCalls start ps s) = true) : exec i s = .next (cathodeResult start ps s) := by
    obtain ⟨hpath, -⟩ := writeDigits_cathode hw start ps
    exact exec_digits_ready hlife hd (hpath ▸ cathodeWrite_serves htp hw hs)
  refine ⟨fun _ _ => hupdate rfl, fun _ _ => hupdate rfl, fun _ _ _ => hupdate rfl, fun _ _ => hupdate rfl,
    fun start pats => ⟨fun hnone => ?_, fun hstart hne => ?_, fun k hk hreg => ?_, fun r hr hout => ?_⟩⟩
  · have hm : cathodeCount start pats.length = 0 := by
      rwa [cathodeCount_eq_zero_iff, List.length_eq_zero_iff]
    rw [digitsCalls_cathode hw, if_pos hm, cathodeResult_of_count_zero hm]
    exact ⟨rfl, rfl⟩
  · have hm : cathodeCount start pats.length ≠ 0 := by
      rw [ne_eq, cathodeCount_eq_zero_iff, List.length_eq_zero_iff]
      exact not_or_intro (by omega) hne
    rw [digitsCalls_cathode hw, if_neg hm, cathodeCount_of_lt hstart, cathodeResult_of_count_ne_zero hm, written_log]
    exact ⟨rfl, rfl⟩
  · rw [cathodeResult_dr_getElem _ _ _ _ hreg, dif_pos (by omega)]
    simp only [Nat.add_sub_cancel_left]
  · rw [cathodeResult_dr_getElem _ _ _ _ hr, dif_neg (by omega)]

end Sys2Proof.Machine
end

section
/-! The family of spec/60_exceptions.md: how a step ends without an instruction, the reply every request gives, and what
a power loss leaves. -/

namespace Sys2Proof.Machine

/-! ### Overlaps, packets that are no instruction, and the idle block (R245, R246) -/

/-- Settles O4: the step takes the input off the port, and each of these inputs ends it by its own rule. -/
theorem stepRefusesOverlapsAndIdles : Obligations.StepRefusesOverlapsAndIdles := by
  refine ⟨fun s p rest hp => step_of_port hp, fun s p rest e hp hd => ?_, fun s hp => ?_⟩
  · rw [step_of_port hp]
    simp only [runInput, runPacket, hd]
  · simp only [step, takeInput, hp]

/-! ### The reply of a request (R240-R244, R247, R248) -/

/-- Settles O33: each operation is admitted in one lifecycle state and gives NotReady in every other. -/
theorem notReadyHasNoEffect : Obligations.NotReadyHasNoEffect := by
  intro s
  simp only [exec, execInitialize, execConfigureDisplay, execSetDigit, execSetDigits, execSetDigitHex,
    execSetDigitsHex, execScanKeys, execShutdown]
  exact ⟨fun h _ => admit_neg h, fun h => ⟨fun _ _ => admit_neg h, fun _ _ => admit_neg h, fun _ _ => admit_neg h,
    fun _ _ _ => admit_neg h, fun _ _ => admit_neg h, admit_neg h, admit_neg h⟩⟩

/-- However a request ends, it has replied with a status of those R240 returns, and with a mask exactly beside Ok of
`scanKeys` (R207). -/
theorem RequestEnd.reply {i : Instr} {s t : State} (h : RequestEnd i s t) :
    ∃ r, t.reply = some r ∧ statusReturned r.status = true ∧ (r.mask ≠ none ↔ (i = .scanKeys ∧ r.status = .ok)) := by
  cases h with
  | notReady => exact ⟨_, rfl, rfl, by simp⟩
  | initialized w hi => exact ⟨_, rfl, rfl, by simp [hi]⟩
  | released hi => exact ⟨_, rfl, rfl, by simp [hi]⟩
  | ok u mask _ _ hm => exact ⟨_, rfl, rfl, by simpa using hm⟩
  | failed u => exact ⟨_, rfl, rfl, by simp⟩

theorem RequestEnd.replyInv {i : Instr} {s t : State} (h : RequestEnd i s t) : t.ReplyInv := by
  obtain ⟨r, hr, hstatus, hmask⟩ := h.reply
  intro r' hr'
  obtain rfl : r = r' := Option.some.inj (hr.symm.trans hr')
  exact ⟨hstatus, fun hne => (hmask.mp hne).2⟩

theorem replyInv_of_none {s : State} (h : s.reply = none) : s.ReplyInv := by
  intro r hr
  rw [h] at hr
  cases hr

/-- Settles O56: resets empty the latch, chip frames leave it, requests reply by `RequestEnd.reply`. -/
theorem stepKeepsTheReplyLegal : Obligations.StepKeepsTheReplyLegal := by
  intro s t hs h
  exact step_keeps (Inv := State.ReplyInv)
    (hport := fun _ _ hu => hu)
    (hreset := fun _ _ => replyInv_of_none rfl)
    (hpower := fun _ _ => replyInv_of_none rfl)
    (hchip := fun _ _ hu => hu)
    (hreq := fun _ _ _ _ he => he.replyInv) hs h

/-! ### Every request is answered, whatever the transport does (R184, R240, R241) -/

/-- A sequence that goes through or stops at a failed call: it neither faults nor is refused. -/
inductive Run.Ends {α : Type} : Run α → Prop where
  | done (a : α) (t : State) : Ends (.done a t)
  | failed (t : State) : Ends (.failed t)

/-- A sequence ends that goes through when its `n` calls are answered and stops at the first that is not: the transport
does one or the other. -/
theorem Run.ends_of_calls {α : Type} {r : Run α} {s : State} (n : Nat)
    (hserves : s.bus.serves n = true → ∃ a t, r = .done a t)
    (hfails : ∀ k, k < n → s.bus.failsAt k = true → ∃ t, r = .failed t) : r.Ends := by
  rcases serves_or_failsAt n s.bus with hs | ⟨k, hk, hf⟩
  · obtain ⟨a, t, rfl⟩ := hserves hs
    exact .done a t
  · obtain ⟨t, rfl⟩ := hfails k hk hf
    exact .failed t

theorem dispCtrl_ends {s : State} (htp : s.tp = .bound) (brightness : Nat) (en : Bool) :
    (dispCtrl brightness en s).Ends :=
  Run.ends_of_calls 3 (fun hs => ⟨_, _, dispCtrl_serves htp hs⟩) fun _ hk hf => ⟨_, dispCtrl_failsAt htp hk hf⟩

theorem scanRead_ends {s : State} (htp : s.tp = .bound) (hkeeps : s.bus.keepsBracket = true) : (scanRead s).Ends :=
  Run.ends_of_calls 7 (fun hs => ⟨_, _, scanRead_serves htp hkeeps hs⟩) fun _ hk hf =>
    ⟨_, scanRead_failsAt htp hkeeps hk hf⟩

/-- An update of digits ends under either wiring: each path sends well-formed frames only (R144, R146). -/
theorem writeDigits_ends {s : State} (htp : s.tp = .bound) (hw : s.wiring ≠ none) (start : Nat) (ps : List Byte) :
    (writeDigits start ps s).Ends := by
  refine Run.ends_of_calls (digitsCalls start ps s) (fun hs => ?_) fun _ hk hf => ⟨_, writeDigits_failsAt htp hk hf⟩
  rcases wiring_cases s with hnone | hcathode | hanode
  · exact absurd hnone hw
  · obtain ⟨hpath, -⟩ := writeDigits_cathode hcathode start ps
    obtain ⟨t, ht, -⟩ := cathodeWrite_serves htp hcathode hs
    exact ⟨_, t, hpath.trans ht⟩
  · obtain ⟨hpath, -, hcalls, -⟩ := writeDigits_anode hanode start ps
    obtain ⟨t, ht, -⟩ := anodeWrite_serves (start := start) (ps := ps) htp (hcalls ▸ hs)
    exact ⟨_, t, hpath.trans ht⟩

/-- An operation admitted whose transport sequence ends answers a next state. -/
theorem finish_answers {α : Type} {r : Run α} (h : r.Ends) (mask : α → Option KeyMask) :
    ∃ t, finish (r.bind fun a s => .done (mask a) s) = .next t := by
  cases h with
  | done a t => exact ⟨_, rfl⟩
  | failed t => exact ⟨_, rfl⟩

theorem ifAdmitted_answers {need : Life} {body : State → Host.Outcome State Fault Refusal} {s : State}
    (h : ∃ t, body s = .next t) : ∃ t, ifAdmitted need body s = .next t := by
  by_cases hl : s.life = need
  · rwa [admit_pos hl]
  · exact ⟨_, admit_neg hl⟩

/-- With a bound transport that keeps the bracket and a wiring every request but a reserved tag answers a next
state. -/
theorem exec_answers {i : Instr} {s : State} (htp : s.tp = .bound) (hw : s.wiring ≠ none)
    (hkeeps : s.bus.keepsBracket = true) (hi : i.isRequest = true) (hres : ∀ low ops, i ≠ .reservedTag low ops) :
    ∃ t, exec i s = .next t := by
  have digits : ∀ start ps, digitsOf s.cfg.segLut i = some (start, ps) → ∃ t, exec i s = .next t := by
    intro start ps hd
    rw [digitsOf_exec hd]
    exact ifAdmitted_answers (finish_answers (writeDigits_ends htp hw start ps) _)
  cases i with
  | dataWriteAuto | dataReadKeys | dataWriteFixed | dataGeneric | addrSet | dispCtrl | class00 => cases hi
  | initDevice w =>
    simp only [exec, execInitialize]
    exact ifAdmitted_answers ⟨initializeBody w s, rfl⟩
  | configureDisplay b en =>
    simp only [exec, execConfigureDisplay]
    exact ifAdmitted_answers (finish_answers (dispCtrl_ends htp b en) _)
  | setDigit p x => exact digits _ _ rfl
  | setDigits p xs => exact digits _ _ rfl
  | setDigitHex p v d => exact digits _ _ rfl
  | setDigitsHex p items => exact digits _ _ rfl
  | scanKeys =>
    simp only [exec, execScanKeys]
    exact ifAdmitted_answers (finish_answers (scanRead_ends htp hkeeps) _)
  | shutdown =>
    simp only [exec, execShutdown]
    exact ifAdmitted_answers ⟨shutdownBody s, rfl⟩
  | reservedTag low ops => exact absurd rfl (hres low ops)

/-- Settles O41: the request answers a next state by `exec_answers`, whose reply is that of `RequestEnd.reply`. -/
theorem everyRequestIsAnswered : Obligations.EveryRequestIsAnswered := by
  rintro i s ⟨-, htp, hw⟩ hkeeps hi hres
  obtain ⟨t, hexec⟩ := exec_answers htp hw hkeeps hi hres
  obtain ⟨r, hr, -, hmask⟩ := (exec_request hi hexec).reply
  exact ⟨t, r, hexec, hr, hmask⟩

/-! ### Power loss (R253) -/

/-- Settles O58: the step is State.powerOn on the state with the input taken, which writes every other field as the
reset does. -/
theorem powerOnIsTheResetMachine : Obligations.PowerOnIsTheResetMachine := by
  intro s rest h
  have hstep : step s = .next ({ s with port := rest } : State).powerOn := step_of_port h
  exact hstep

/-- Settles O59: by O58 both machines become the reset machine of what the two states share. -/
theorem nothingPersistsAcrossPowerLoss : Obligations.NothingPersistsAcrossPowerLoss := by
  intro s rest life wiring sh tp chip bracket log reply h
  rw [powerOnIsTheResetMachine s rest h]
  exact powerOnIsTheResetMachine _ rest h

end Sys2Proof.Machine
end

section
/-! The family of spec/70_reset_and_hazards.md: the block after a reset (R260), and the number of transport events of an
operation that returned Ok (R270). -/

namespace Sys2Proof.Machine

/-! ### The block after a reset (R260) -/

/-- While the block is Unbound its shadow has no value (R23). -/
theorem shadow?_of_unbound {s : State} (h : s.life = .unbound) : s.shadow? = none := if_pos h

/-- Settles O1: both resets write the block's own fields, and an Unbound block has no shadow. -/
theorem blockResetUnbindsTheBlock : Obligations.BlockResetUnbindsTheBlock := by
  refine ⟨⟨rfl, rfl, shadow?_of_unbound rfl, rfl⟩, ?_⟩
  rintro s rest (hp | hp)
  · exact ⟨_, step_of_port hp, rfl, rfl, shadow?_of_unbound rfl, rfl⟩
  · exact ⟨_, step_of_port hp, rfl, rfl, shadow?_of_unbound rfl, rfl⟩

/-- Settles O51: the reset state is Unbound without wiring and binding, its shadow is zero, its trace and its latch are
empty. -/
theorem resetMeetsTheInvariants : Obligations.ResetMeetsTheInvariants :=
  ⟨⟨rfl, rfl⟩, oddInv_of_zeroShadow rfl, fun _ => rfl, rfl, replyInv_of_none rfl⟩

/-! ### The events of an operation that returned Ok (R270) -/

/-- An update of digits that returned Ok under CommonAnode has sent the whole image: sixteen registers. -/
theorem anodeResult_log_length (start : Nat) (ps : List Byte) (s : State) :
    (anodeResult start ps s).bus.log.length = s.bus.log.length + 22 := by
  rw [anodeResult, written_log, List.length_append, writeTrace_length, Vector.length_toList]

/-- Under CommonCathode it has sent the registers in range, or nothing. -/
theorem cathodeResult_log_length {s : State} (hw : s.wiring = some .commonCathode) (start : Nat) (ps : List Byte) :
    (cathodeResult start ps s).bus.log.length = s.bus.log.length + digitsCalls start ps s := by
  rw [digitsCalls_cathode hw]
  by_cases hm : cathodeCount start ps.length = 0
  · rw [cathodeResult_of_count_zero hm, if_pos hm]
    rfl
  · rw [cathodeResult, if_neg hm, if_neg hm, written_log, List.length_append, writeTrace_length, cathode_data_length]

section
variable {s t : State} {m : Option KeyMask}

theorem exec_configureDisplay_ok_log {b : Nat} {en : Bool} (h : exec (.configureDisplay b en) s = .next t)
    (hr : t.reply = some { status := .ok, mask := m }) :
    t.bus.log = s.bus.log ++ (Frame.disp (brightnessField b) en).events s.cfg.layout [] := by
  obtain ⟨-, hend⟩ := exec_eq_ok rfl (by simp) h hr
  cases hend with
  | disp _ _ hi _ ht => cases hi; subst ht; rfl
  | released hi => cases hi
  | scan hi => cases hi
  | anode _ _ hd => cases hd
  | cathode _ _ hd => cases hd

theorem exec_scanKeys_ok_log (h : exec .scanKeys s = .next t) (hr : t.reply = some { status := .ok, mask := m }) :
    ∃ reg : List Byte, reg.length = 4 ∧ t.bus.log = s.bus.log ++ Frame.scan.events s.cfg.layout reg := by
  obtain ⟨-, hend⟩ := exec_eq_ok rfl (by simp) h hr
  cases hend with
  | scan _ reg hlen _ _ ht => subst ht; exact ⟨reg, hlen, rfl⟩
  | released hi => cases hi
  | disp _ _ hi => cases hi
  | anode _ _ hd => cases hd
  | cathode _ _ hd => cases hd

theorem exec_digits_ok_log_length {i : Instr} {start : Nat} {ps : List Byte}
    (hd : digitsOf s.cfg.segLut i = some (start, ps)) (h : exec i s = .next t)
    (hr : t.reply = some { status := .ok, mask := m }) :
    t.bus.log.length = s.bus.log.length + digitsCalls start ps s := by
  rcases exec_digits_ok hd h hr with ⟨hw, rfl⟩ | ⟨hw, rfl⟩
  · obtain ⟨-, -, hcalls, -⟩ := writeDigits_anode hw start ps
    rw [anodeResult_log_length, hcalls]
  · exact cathodeResult_log_length hw start ps

/-- An operation whose body makes no transport call leaves the trace alone, admitted or not (R244). -/
theorem ifAdmitted_log {need : Life} {body : State → Host.Outcome State Fault Refusal}
    (hbody : ∀ u, body s = .next u → u.bus.log = s.bus.log) (h : ifAdmitted need body s = .next t) :
    t.bus.log = s.bus.log := by
  by_cases hl : s.life = need
  · rw [admit_pos hl] at h
    exact hbody t h
  · rw [admit_neg hl] at h
    cases h
    rfl

theorem exec_initDevice_log {w : Wiring} (h : exec (.initDevice w) s = .next t) : t.bus.log = s.bus.log := by
  simp only [exec, execInitialize] at h
  exact ifAdmitted_log (by rintro _ ⟨⟩; rfl) h

theorem exec_shutdown_log (h : exec .shutdown s = .next t) : t.bus.log = s.bus.log := by
  simp only [exec, execShutdown] at h
  exact ifAdmitted_log (by rintro _ ⟨⟩; rfl) h

end

/-- Settles O49: the events each operation adds are its frames, counted by `events_length`; `initialize` and
`shutdown` send none, admitted or not. -/
theorem eventCounts : Obligations.EventCounts := by
  intro i s t m _ h hr
  refine ⟨?_, ?_, fun start pats hd => exec_digits_ok_log_length hd h hr, ?_⟩
  · rintro ⟨b, en, rfl⟩
    rw [exec_configureDisplay_ok_log h hr, List.length_append, events_length]
    rfl
  · rintro rfl
    obtain ⟨reg, hlen, hlog⟩ := exec_scanKeys_ok_log h hr
    rw [hlog, List.length_append, events_length, hlen]
    rfl
  · rintro (⟨w, rfl⟩ | rfl)
    · exact exec_initDevice_log h
    · exact exec_shutdown_log h

end Sys2Proof.Machine
end
